-- ==== Sys2Proof/Word.lean ====
section
/-! DEFINITION. The value types of the machine: byte, address, cycle counter, and the flag tuple
(`00_scope.md` R9, R11; `10_state.md` R20). Their arithmetic is in `Machine/Bits.lean`. -/

namespace Sys2Proof

/-- `u8` of R11: a register, a memory cell, an opcode or operand byte. -/
abbrev Byte := BitVec 8

/-- `u16` of R11: an address, the program counter, an operand or pointer word. -/
abbrev Addr := BitVec 16

/-- `i64` of R11: the cycle counter and a cycle budget, read as two's complement by `BitVec.toInt`
(R35: "a signed 64-bit integer"; log 22). -/
abbrev Cycles := BitVec 64

/-- The seven condition flags, held as seven separate bits (`10_state.md` R26 to R33; the letters are the spec's). -/
structure Flags where
  /-- carry (R26) -/
  c : Bool
  /-- zero (R27) -/
  z : Bool
  /-- interrupt-disable (R28) -/
  i : Bool
  /-- decimal (R29) -/
  d : Bool
  /-- break (R30) -/
  b : Bool
  /-- overflow (R31) -/
  v : Bool
  /-- negative (R32) -/
  n : Bool
deriving DecidableEq, Repr

end Sys2Proof
end

