-- ==== Sys2Proof/Config.lean ====
section
/-! DEFINITION. The parameters of the implementation, under the names of `00_scope.md` R9 and R10, so that a claim
can name them. The remaining parameter of R10, OPCODE_TABLE, is `Sys2Proof.opcodeTable` in `Decode.lean`.
There is no free value: the spec decides every point its source leaves open (`92_eei_decisions.md`). -/

namespace Sys2Proof

/-- The two byte orders `20_memory.md` R53 speaks of. -/
inductive WordOrder where
  /-- low byte at the lower address -/
  | little
  /-- high byte at the lower address -/
  | big
deriving DecidableEq, Repr

/-- Where each flag stands in the packed byte `P` (`10_state.md` R33); `one` is the bit that reads 1. -/
structure PLayout where
  n : Nat
  v : Nat
  one : Nat
  b : Nat
  d : Nat
  i : Nat
  z : Nat
  c : Nat
deriving DecidableEq, Repr

/-- WORD_ORDER (R10, R53, D1). UNVERIFIED, unsafe if wrong: log 5. -/
def Config.wordOrder : WordOrder := .little

/-- MEM_SIZE (R9): addresses `0x0000` to `0xFFFF`. -/
def Config.memSize : Nat := 65536

/-- ADDR_WRAP (R10, R56, D2, D3): address arithmetic is taken modulo this number. UNVERIFIED, unsafe if wrong: log 6. -/
def Config.addrModulus : Nat := 65536

/-- The modulus of an index addition that forms a zero-page address (`40_addressing_resolver.md` R104). -/
def Config.zeroPageModulus : Nat := 256

/-- What a cell that nothing has written reads as: the memory is "zero-initialized" (R38, R50). DEDUCED, unsafe: log 4. -/
def Config.blankByte : Byte := 0x00

/-- HALT_COST (R10, R142, D5). UNVERIFIED, unsafe if wrong: log 8. -/
def Config.haltCost : Nat := 7

/-- INVALID_COST (R10, R143, D6). UNVERIFIED, unsafe if wrong: log 9. -/
def Config.invalidCost : Nat := 1

/-- PAGE_CROSS_PENALTY (R10, R121, D13). UNVERIFIED, unsafe if wrong: log 13. -/
def Config.pageCrossPenalty : Nat := 0

/-- RESET_PC (R9). -/
def Config.resetPc : Addr := 0x0200

/-- RESET_SP (R10, R22, D10). UNVERIFIED, unsafe if wrong: log 11. -/
def Config.resetSp : Byte := 0x00

/-- RESET_FLAGS (R10, R40, D9): interrupt-disable set, the others clear. UNVERIFIED, unsafe if wrong: log 11. -/
def Config.resetFlags : Flags :=
  { c := false, z := false, i := true, d := false, b := false, v := false, n := false }

/-- P_LAYOUT (R10, R33, D11). UNVERIFIED, unsafe if wrong: log 12. -/
def Config.pLayout : PLayout :=
  { n := 7, v := 6, one := 5, b := 4, d := 3, i := 2, z := 1, c := 0 }

end Sys2Proof
end

