-- ==== Sys2Proof/Machine/Bits.lean ====
section
/-! DEFINITION. The bit-field, byte-order, extension and wrapping operations of `00_scope.md` R11, with every modulus
written out as `40_addressing_resolver.md` R104 asks. -/

namespace Sys2Proof.Machine

/-- `{hi, lo} = hi * 256 + lo` of R11. -/
def cat (hi lo : Byte) : Addr := BitVec.ofNat 16 (hi.toNat * 256 + lo.toNat)

/-- `v[7:0]` of a word. -/
def lowByte (w : Addr) : Byte := BitVec.ofNat 8 (w.toNat % 256)

/-- `v[15:8]` of a word. -/
def highByte (w : Addr) : Byte := BitVec.ofNat 8 (w.toNat / 256)

/-- `zext_16` of R11. -/
def zext16 (b : Byte) : Addr := BitVec.ofNat 16 b.toNat

/-- `sext_16` of R11: `b` below 128, else `b + 0xFF00`. -/
def sext16 (b : Byte) : Addr :=
  if b.toNat < 128 then BitVec.ofNat 16 b.toNat else BitVec.ofNat 16 (b.toNat + 0xFF00)

/-- `a +_8 b` of R11, the zero-page index addition (R104). -/
def add8 (a b : Byte) : Byte := BitVec.ofNat 8 ((a.toNat + b.toNat) % Config.zeroPageModulus)

/-- `a +_16 b` of R11, every 16-bit address addition (R56, R104). -/
def add16 (a b : Addr) : Addr := BitVec.ofNat 16 ((a.toNat + b.toNat) % Config.addrModulus)

/-- `satsub(c, k) = max(c - k, 0)` of R11, on the signed readings. -/
def satsub (c : Cycles) (k : Nat) : Cycles := BitVec.ofInt 64 (max (c.toInt - (k : Int)) 0)

/-- The word made of the byte at the lower and the byte at the higher address (`20_memory.md` R53, R55; log 5). -/
def joinWord (first second : Byte) : Addr :=
  match Config.wordOrder with
  | .little => cat second first
  | .big => cat first second

/-- The byte a word keeps at the lower address (R54, R55). -/
def wordFirst (w : Addr) : Byte :=
  match Config.wordOrder with
  | .little => lowByte w
  | .big => highByte w

/-- The byte a word keeps at the higher address (R54, R55). -/
def wordSecond (w : Addr) : Byte :=
  match Config.wordOrder with
  | .little => highByte w
  | .big => lowByte w

/-- Whether two addresses lie in different pages: their high bytes differ (`00_scope.md` glossary, "page"). -/
def pageCrossed (base ea : Addr) : Bool := highByte base != highByte ea

end Sys2Proof.Machine
end

