-- ==== Sys2Proof/Syntax.lean ====
section
/-! DEFINITION. The addressing modes and formats, and the nine instructions: one constructor of `Instr` per row of
`30_encoding.md` R74, each carrying the operand its row's format gives it (R71, R73). -/

namespace Sys2Proof

/-- The thirteen addressing modes, "a closed enumeration of variants" (`10_state.md` R39), in the spec's order. -/
inductive Mode where
  | implicit
  | accumulator
  | immediate
  | zeropage
  | zeropageX
  | zeropageY
  | relative
  | absolute
  | absoluteX
  | absoluteY
  | indirect
  | indexedIndirect
  | indirectIndexed
deriving DecidableEq, Repr

/-- The three formats of R71: one, two or three bytes. -/
inductive Format where
  | f1
  | f2
  | f3
deriving DecidableEq, Repr

/-- The two instruction handlers (`42_load_accumulator.md` R120; `43_dispatch_and_halt.md` R142). -/
inductive Handler where
  /-- the halt handler, `Halt()` of R142 -/
  | halt
  /-- the load-accumulator handler, `LDA(mode)` of R120 -/
  | load
deriving DecidableEq, Repr

/-- The instructions: the nine rows of R74, in the table's order. A one-byte operand `d` is a `Byte`, a two-byte
operand `{hi, lo}` is the assembled word (R73). -/
inductive Instr where
  /-- `BRK`, opcode `00` (R142) -/
  | brk
  /-- `LDA ($nn,X)`, opcode `A1` (R128) -/
  | ldaIndexedIndirect (d : Byte)
  /-- `LDA $nn`, opcode `A5` (R123) -/
  | ldaZeropage (d : Byte)
  /-- `LDA #$nn`, opcode `A9` (R122) -/
  | ldaImmediate (d : Byte)
  /-- `LDA $nnnn`, opcode `AD` (R125) -/
  | ldaAbsolute (w : Addr)
  /-- `LDA ($nn),Y`, opcode `B1` (R129) -/
  | ldaIndirectIndexed (d : Byte)
  /-- `LDA $nn,X`, opcode `B5` (R124) -/
  | ldaZeropageX (d : Byte)
  /-- `LDA $nnnn,Y`, opcode `B9` (R127) -/
  | ldaAbsoluteY (w : Addr)
  /-- `LDA $nnnn,X`, opcode `BD` (R126) -/
  | ldaAbsoluteX (w : Addr)
deriving DecidableEq, Repr

/-- The handler of an instruction: the mnemonic column of R74. -/
def Instr.handler : Instr → Handler
  | .brk => .halt
  | .ldaIndexedIndirect _ => .load
  | .ldaZeropage _ => .load
  | .ldaImmediate _ => .load
  | .ldaAbsolute _ => .load
  | .ldaIndirectIndexed _ => .load
  | .ldaZeropageX _ => .load
  | .ldaAbsoluteY _ => .load
  | .ldaAbsoluteX _ => .load

/-- The addressing mode of an instruction: the mode column of R74. -/
def Instr.mode : Instr → Mode
  | .brk => .implicit
  | .ldaIndexedIndirect _ => .indexedIndirect
  | .ldaZeropage _ => .zeropage
  | .ldaImmediate _ => .immediate
  | .ldaAbsolute _ => .absolute
  | .ldaIndirectIndexed _ => .indirectIndexed
  | .ldaZeropageX _ => .zeropageX
  | .ldaAbsoluteY _ => .absoluteY
  | .ldaAbsoluteX _ => .absoluteX

end Sys2Proof
end

