-- ==== Sys2Proof/WellFormed.lean ====
section
/-! DEFINITION. The one well-formedness check the spec gives: a handler accepts only the modes of its set
(`42_load_accumulator.md` R121, R130). Operand widths are in the operands' types, so they need no check. -/

namespace Sys2Proof

/-- `SUPPORTED_LDA` of R121: the modes the load-accumulator handler accepts. -/
def supportedLda : Mode → Bool
  | .immediate => true
  | .zeropage => true
  | .zeropageX => true
  | .absolute => true
  | .absoluteX => true
  | .absoluteY => true
  | .indexedIndirect => true
  | .indirectIndexed => true
  | .implicit => false
  | .accumulator => false
  | .zeropageY => false
  | .relative => false
  | .indirect => false

/-- A handler paired with a mode it supports (R120: handlers reject "modes it does not support"); the halt
handler has mode Implicit only (R142). -/
def Handler.accepts : Handler → Mode → Bool
  | .load, m => supportedLda m
  | .halt, m => m == .implicit

/-- An instruction is well formed when its handler accepts its mode (R130). -/
def Instr.wellFormed (i : Instr) : Bool := i.handler.accepts i.mode

end Sys2Proof
end

