-- ==== Sys2Proof/Decode.lean ====
section
/-! DEFINITION. The opcode table and `Decode` (`30_encoding.md` R74, R75), formats and lengths (R71, R72, R78), the
decoder from bytes to instructions, the encoder, and the assembler spelling (R79). -/

namespace Sys2Proof

open Sys2Proof.Machine

/-- Mode to format, the table of R72. -/
def Mode.format : Mode → Format
  | .implicit => .f1
  | .accumulator => .f1
  | .immediate => .f2
  | .zeropage => .f2
  | .zeropageX => .f2
  | .zeropageY => .f2
  | .relative => .f2
  | .absolute => .f3
  | .absoluteX => .f3
  | .absoluteY => .f3
  | .indirect => .f3
  | .indexedIndirect => .f2
  | .indirectIndexed => .f2

/-- The operand bytes of a format (R71). -/
def Format.operandBytes : Format → Nat
  | .f1 => 0
  | .f2 => 1
  | .f3 => 2

/-- The operand bytes of a mode: `width(mode)` of R78, `w` of `40_addressing_resolver.md` R106. -/
def Mode.width (m : Mode) : Nat := m.format.operandBytes

/-- The result of `Decode`: "one of {known handler, 'invalid opcode'}" (R75). -/
inductive DecodedOpcode where
  | brk
  | lda (m : Mode)
  | invalid (op : Byte)
deriving DecidableEq, Repr

/-- A row of the opcode table: the opcode byte and what it selects (R74). -/
structure OpcodeRow where
  opcode : Byte
  selects : DecodedOpcode
deriving DecidableEq, Repr

/-- OPCODE_TABLE (`00_scope.md` R10): the nine rows of R74. The bytes are the spec's decision D4. UNVERIFIED,
unsafe if wrong: log 7. -/
def opcodeTable : List OpcodeRow :=
  [ { opcode := 0x00, selects := .brk },
    { opcode := 0xA1, selects := .lda .indexedIndirect },
    { opcode := 0xA5, selects := .lda .zeropage },
    { opcode := 0xA9, selects := .lda .immediate },
    { opcode := 0xAD, selects := .lda .absolute },
    { opcode := 0xB1, selects := .lda .indirectIndexed },
    { opcode := 0xB5, selects := .lda .zeropageX },
    { opcode := 0xB9, selects := .lda .absoluteY },
    { opcode := 0xBD, selects := .lda .absoluteX } ]

/-- Full-byte match of an opcode against rows (R74: mask `0xFF`). -/
def lookupOpcode (op : Byte) : List OpcodeRow → DecodedOpcode
  | [] => .invalid op
  | r :: rows => if r.opcode = op then r.selects else lookupOpcode op rows

/-- `Decode(op)` of R75: total on all 256 bytes. -/
def decodeOpcode (op : Byte) : DecodedOpcode := lookupOpcode op opcodeTable

/-- The length of the instruction that starts with the opcode byte `op` (R78): 1 for an invalid opcode. -/
def opcodeLength (op : Byte) : Nat :=
  match decodeOpcode op with
  | .brk => 1 + Mode.width .implicit
  | .lda m => 1 + m.width
  | .invalid _ => 1

/-- Why bytes are no instruction. -/
inductive DecodeError where
  /-- the opcode byte has no row in the table (R76); `Step` reports it and goes on (R143) -/
  | invalidOpcode (op : Byte)
  /-- the table pairs the load handler with a mode it does not support: "a dispatch table bug" (R130, R162);
  `Step` raises `ModeFault`; no row of the present table does so -/
  | unsupportedMode (op : Byte) (m : Mode)
  /-- the list ends before the instruction does; never from a fetch, which takes three bytes (log 2, log 27) -/
  | truncated
deriving DecidableEq, Repr

/-- What the decoder answers: an instruction and the bytes after it, or a rejection by name. -/
inductive Decoded where
  | ok (i : Instr) (rest : List Byte)
  | reject (e : DecodeError)
deriving DecidableEq, Repr

/-- Format F2: one operand byte (R71). -/
def withByte (k : Byte → Instr) : List Byte → Decoded
  | d :: rest => .ok (k d) rest
  | [] => .reject .truncated

/-- Format F3: an operand word of two bytes in the machine's byte order (R71, R73). -/
def withWord (k : Addr → Instr) : List Byte → Decoded
  | b0 :: b1 :: rest => .ok (k (joinWord b0 b1)) rest
  | _ :: [] => .reject .truncated
  | [] => .reject .truncated

/-- The load-accumulator instruction of mode `m` from the bytes after its opcode `op` (R73, R74, R130). -/
def decodeLda (op : Byte) (m : Mode) (rest : List Byte) : Decoded :=
  match m with
  | .immediate => withByte .ldaImmediate rest
  | .zeropage => withByte .ldaZeropage rest
  | .zeropageX => withByte .ldaZeropageX rest
  | .absolute => withWord .ldaAbsolute rest
  | .absoluteX => withWord .ldaAbsoluteX rest
  | .absoluteY => withWord .ldaAbsoluteY rest
  | .indexedIndirect => withByte .ldaIndexedIndirect rest
  | .indirectIndexed => withByte .ldaIndirectIndexed rest
  | .implicit => .reject (.unsupportedMode op m)
  | .accumulator => .reject (.unsupportedMode op m)
  | .zeropageY => .reject (.unsupportedMode op m)
  | .relative => .reject (.unsupportedMode op m)
  | .indirect => .reject (.unsupportedMode op m)

/-- The decoder: the instruction at the front of a list of bytes and the bytes after it (R70, R73, R74, R75). -/
def decode : List Byte → Decoded
  | [] => .reject .truncated
  | op :: rest =>
    match decodeOpcode op with
    | .brk => .ok .brk rest
    | .lda m => decodeLda op m rest
    | .invalid o => .reject (.invalidOpcode o)

/-- The encoder: the bytes column of R79, operand words in the machine's byte order (R71, R55). -/
def encode : Instr → List Byte
  | .brk => [0x00]
  | .ldaIndexedIndirect d => [0xA1, d]
  | .ldaZeropage d => [0xA5, d]
  | .ldaImmediate d => [0xA9, d]
  | .ldaAbsolute w => [0xAD, wordFirst w, wordSecond w]
  | .ldaIndirectIndexed d => [0xB1, d]
  | .ldaZeropageX d => [0xB5, d]
  | .ldaAbsoluteY w => [0xB9, wordFirst w, wordSecond w]
  | .ldaAbsoluteX w => [0xBD, wordFirst w, wordSecond w]

/-- The bytes of a number in the opcode table's numbering: bits 7..0 are the first byte. Three bytes, the longest
instruction (R70); bits from `nbits` on are zero. -/
def tableBytes (nbits w : Nat) : List Byte :=
  [ BitVec.ofNat 8 (w % 2 ^ nbits),
    BitVec.ofNat 8 (w % 2 ^ nbits / 256),
    BitVec.ofNat 8 (w % 2 ^ nbits / 65536) ]

/-- The decoder on a word of the opcode table's numbering, operand bytes above `nbits` zero. -/
def decodeTableWord (nbits w : Nat) : Option Instr :=
  match decode (tableBytes nbits w) with
  | .ok i _ => some i
  | .reject _ => none

/-- One hexadecimal digit. -/
def hexDigit (n : Nat) : String :=
  match n with
  | 0 => "0"
  | 1 => "1"
  | 2 => "2"
  | 3 => "3"
  | 4 => "4"
  | 5 => "5"
  | 6 => "6"
  | 7 => "7"
  | 8 => "8"
  | 9 => "9"
  | 10 => "A"
  | 11 => "B"
  | 12 => "C"
  | 13 => "D"
  | 14 => "E"
  | _ => "F"

/-- `nn` of R79: two hexadecimal digits. -/
def hexByte (b : Byte) : String := hexDigit (b.toNat / 16) ++ hexDigit (b.toNat % 16)

/-- `nnnn` of R79: four hexadecimal digits, the high byte first. -/
def hexWord (w : Addr) : String := hexByte (highByte w) ++ hexByte (lowByte w)

/-- The assembler spelling of an instruction, the first column of R79 (D23: notation only). -/
def assembly : Instr → String
  | .brk => "BRK"
  | .ldaImmediate d => "LDA #$" ++ hexByte d
  | .ldaZeropage d => "LDA $" ++ hexByte d
  | .ldaZeropageX d => "LDA $" ++ hexByte d ++ ",X"
  | .ldaAbsolute w => "LDA $" ++ hexWord w
  | .ldaAbsoluteX w => "LDA $" ++ hexWord w ++ ",X"
  | .ldaAbsoluteY w => "LDA $" ++ hexWord w ++ ",Y"
  | .ldaIndexedIndirect d => "LDA ($" ++ hexByte d ++ ",X)"
  | .ldaIndirectIndexed d => "LDA ($" ++ hexByte d ++ "),Y"

end Sys2Proof
end

