-- ==== Sys2Proof/Machine/State.lean ====
section
/-! DEFINITION. The state of the machine as plain data, holding everything `10_state.md` R20 and R36 to R38 name, the
state after reset (R40), and the reasons a step or a host move can stop. -/

namespace Sys2Proof.Machine

/-- The state of the dispatch state machine (R36). -/
inductive Status where
  /-- stopped; no run since reset -/
  | reset
  /-- a run is in progress -/
  | running
  /-- stopped; the last run ended because `CYC` reached 0 -/
  | exhausted
  /-- stopped; the last run ended because a halt opcode was executed -/
  | halted
  /-- stopped; the last run ended on a mode fault -/
  | modeFault
deriving DecidableEq, Repr

/-- The error kinds that have a code (`60_exceptions.md` R160). -/
inductive ErrorKind where
  /-- code 1: a byte with no row in the opcode table was fetched as an opcode -/
  | invalidOpcode
  /-- code 2: a handler was given a mode it does not support -/
  | modeFault
  /-- code 3: has a name and no cause (R163) -/
  | memBounds
deriving DecidableEq, Repr

/-- A record of `REPORTS`: the triple `(code, addr, op)` of R37. -/
structure Report where
  kind : ErrorKind
  /-- the address the opcode byte was fetched from -/
  addr : Addr
  /-- the opcode byte -/
  op : Byte
deriving DecidableEq, Repr

/-- The memory (R38, R50) as (address, byte) pairs, addresses strictly rising, no entry equal to the blank byte.
An address that is not listed reads as `Config.blankByte`. -/
abbrev Memory := List Host.Cell

/-- The register file (R20), `STATUS` (R36), `REPORTS` (R37) and the memory (R38): R6 says there is no other state. -/
structure State where
  /-- program counter (R21) -/
  pc : Addr
  /-- stack pointer (R22) -/
  sp : Byte
  /-- accumulator (R23) -/
  a : Byte
  /-- index register X (R24) -/
  x : Byte
  /-- index register Y (R25) -/
  y : Byte
  /-- the seven flags (R26 to R32) -/
  flags : Flags
  /-- remaining cycle budget (R35) -/
  cyc : Cycles
  /-- state of the dispatch state machine (R36) -/
  status : Status
  /-- records reported to the host, oldest first (R37) -/
  reports : List Report
  /-- memory (R38) -/
  mem : Memory
deriving DecidableEq, Repr

/-- The state after reset over a freshly created memory: the table of R40, and R192's "all zero when created" (log 3). -/
def State.reset : State :=
  { pc := Config.resetPc
    sp := Config.resetSp
    a := 0x00
    x := 0x00
    y := 0x00
    flags := Config.resetFlags
    cyc := 0
    status := .reset
    reports := []
    mem := [] }

/-- The reasons a step can stop with a fault. -/
inductive Fault where
  /-- `MemBounds` of R163, an access outside the memory. The only arm that names it is the one of `step` for
  a decoder that runs out of fetched bytes, which no state reaches (R60: it "can never be raised"). Safe: log 27. -/
  | memBounds
deriving DecidableEq, Repr

/-- The reasons a step or a host move is given no meaning. -/
inductive Refusal where
  /-- an arm of `exec` that has no meaning yet; no arm raises it now. Safe. -/
  | notModelled (mnemonic : String)
  /-- raised by `hostMove` for any move but reset while `STATUS` is `RUNNING`: "A model gives the host no move
  during a run" (R41, R195). Never raised by `step`. Safe: log 19. -/
  | hostMoveDuringRun
deriving DecidableEq, Repr

end Sys2Proof.Machine
end

