-- ==== Sys2Proof/Machine/Ops.lean ====
section
/-! DEFINITION. The named operations over memory and registers: the four memory operations (`20_memory.md` R51 to R54),
the advance of `PC`, `Debit`, the fetch, and the two error primitives (`00_scope.md` R12). The hardware has no trap entry
and no trap return (`60_exceptions.md` R166, R167): reporting is all that raising a condition does, in one shared
operation, `State.report`. -/

namespace Sys2Proof.Machine

/-! ### Memory -/

/-- The byte at an address: the listed one, or the blank byte. -/
def Memory.byteAt : Memory → Nat → Byte
  | [], _ => Config.blankByte
  | c :: m, n => if c.1 = n then c.2 else Memory.byteAt m n

/-- Without the entries of an address. -/
def Memory.erase : Memory → Nat → Memory
  | [], _ => []
  | c :: m, n => if c.1 = n then Memory.erase m n else c :: Memory.erase m n

/-- With an entry put before the first higher address. -/
def Memory.insert : Memory → Nat → Byte → Memory
  | [], n, v => [(n, v)]
  | c :: m, n, v => if n < c.1 then (n, v) :: c :: m else c :: Memory.insert m n v

/-- A byte stored at an address, in canonical form: storing the blank byte removes the entry. -/
def Memory.store (m : Memory) (n : Nat) (v : Byte) : Memory :=
  if v = Config.blankByte then Memory.erase m n else Memory.insert (Memory.erase m n) n v

/-- The canonical form: addresses strictly rising and inside the memory, no entry equal to the blank byte. -/
abbrev Memory.wf (m : Memory) : Prop :=
  m.Pairwise (fun c d => c.1 < d.1) ∧ ∀ c ∈ m, c.1 < Config.memSize ∧ c.2 ≠ Config.blankByte

/-- `MemRead(addr, 1)` (R51). -/
def Memory.read (m : Memory) (a : Addr) : Byte := Memory.byteAt m a.toNat

/-- `MemWrite(addr, 1, v)` (R52). -/
def Memory.write (m : Memory) (a : Addr) (v : Byte) : Memory := Memory.store m a.toNat v

/-- `MemRead(addr, 2)` (R53): the bytes at `addr` and `addr +_16 1`. -/
def Memory.readWord (m : Memory) (a : Addr) : Addr :=
  joinWord (Memory.read m a) (Memory.read m (add16 a 1))

/-- `MemWrite(addr, 2, v)` (R54). -/
def Memory.writeWord (m : Memory) (a : Addr) (w : Addr) : Memory :=
  Memory.write (Memory.write m a (wordFirst w)) (add16 a 1) (wordSecond w)

/-- Bytes stored at consecutive addresses from `a` on, successor as in R56: how a host loads a program (R52, R193). -/
def Memory.load (m : Memory) (a : Addr) : List Byte → Memory
  | [] => m
  | b :: bs => Memory.load (Memory.write m a b) (add16 a 1) bs

/-! ### Registers -/

/-- `PC <- PC +_16 k` (R21, R106). -/
def State.advance (s : State) (k : Nat) : State := { s with pc := add16 s.pc (BitVec.ofNat 16 k) }

/-- `A <- v` (R23). -/
def State.setA (s : State) (v : Byte) : State := { s with a := v }

/-- `Debit(k)` (R148). -/
def State.debit (s : State) (k : Nat) : State := { s with cyc := satsub s.cyc k }

/-- `STATUS <- st` (R36). -/
def State.setStatus (s : State) (st : Status) : State := { s with status := st }

/-! ### Fetch -/

/-- The three bytes from `PC` on, successor as in R56: an instruction is at most three bytes long (R70; log 2). -/
def State.fetchBytes (s : State) : List Byte :=
  [ s.mem.read s.pc, s.mem.read (add16 s.pc 1), s.mem.read (add16 s.pc 2) ]

/-- `PC <- a +_16 1`, the increment of the opcode fetch, "before the handler runs" (R140). -/
def State.opcodeFetched (s : State) : State := s.advance 1

/-! ### Conditions -/

/-- Append a record to `REPORTS` (R37, R161). -/
def State.report (s : State) (kind : ErrorKind) (addr : Addr) (op : Byte) : State :=
  { s with reports := s.reports ++ [{ kind := kind, addr := addr, op := op }] }

/-- `InvalidOpcode(a, op)` of R143: report and debit `INVALID_COST`; the run continues. -/
def State.invalidOpcode (s : State) (a : Addr) (op : Byte) : State :=
  (s.report .invalidOpcode a op).debit Config.invalidCost

/-- `raise ModeFault(op, mode)` (R12, R162): record `(2, a, op)`, `STATUS <- MODE_FAULT`, nothing else (log 18). -/
def State.raiseModeFault (s : State) (a : Addr) (op : Byte) : State :=
  (s.report .modeFault a op).setStatus .modeFault

end Sys2Proof.Machine
end

