-- ==== Sys2Proof/Machine/Operands.lean ====
section
/-! DEFINITION. The addressing-mode resolver (`40_addressing_resolver.md`): the address each operand form refers to, and
`Resolve(mode)`, which reads the operand at `PC` and advances `PC` past it. -/

namespace Sys2Proof.Machine

/-! ### The address of an operand form, its operand given -/

/-- Zeropage (R94). -/
def zeropageAddr (d : Byte) : Addr := zext16 d

/-- Zeropage-X (R95). -/
def zeropageXAddr (d : Byte) (s : State) : Addr := zext16 (add8 d s.x)

/-- Zeropage-Y (R96). -/
def zeropageYAddr (d : Byte) (s : State) : Addr := zext16 (add8 d s.y)

/-- Relative (R97): the byte following the operand, displaced by the signed offset; `pcAfter` is `PC_after_read`. -/
def relativeAddr (d : Byte) (pcAfter : Addr) : Addr := add16 pcAfter (sext16 d)

/-- Absolute-X (R99). -/
def absoluteXAddr (w : Addr) (s : State) : Addr := add16 w (zext16 s.x)

/-- Absolute-Y (R100). -/
def absoluteYAddr (w : Addr) (s : State) : Addr := add16 w (zext16 s.y)

/-- Indirect (R101): the word at the pointer, its second byte at `ptr +_16 1` also at the end of a page (D26; log 16). -/
def indirectAddr (ptr : Addr) (s : State) : Addr := s.mem.readWord ptr

/-- Indexed-Indirect (R102): the word at the zero-page address `d +_8 X`, its second byte at the next address (D26). -/
def indexedIndirectAddr (d : Byte) (s : State) : Addr := s.mem.readWord (zext16 (add8 d s.x))

/-- The base of Indirect-Indexed (R103): the word at the zero-page address `d`, its second byte at the next address. -/
def indirectBase (d : Byte) (s : State) : Addr := s.mem.readWord (zext16 d)

/-- Indirect-Indexed (R103). -/
def indirectIndexedAddr (d : Byte) (s : State) : Addr := add16 (indirectBase d s) (zext16 s.y)

/-! ### The resolver -/

/-- The operand byte at `PC` (`30_encoding.md` R73). -/
def operandByte (s : State) : Byte := s.mem.read s.pc

/-- The operand word at `PC` (R73). -/
def operandWord (s : State) : Addr := s.mem.readWord s.pc

/-- The effective address of a mode whose operand stands at `PC`; `none` for the two modes without one
(R91 to R103; D15, log 14). -/
def effectiveAddress (m : Mode) (s : State) : Option Addr :=
  match m with
  | .implicit => none
  | .accumulator => none
  | .immediate => some s.pc
  | .zeropage => some (zeropageAddr (operandByte s))
  | .zeropageX => some (zeropageXAddr (operandByte s) s)
  | .zeropageY => some (zeropageYAddr (operandByte s) s)
  | .relative => some (relativeAddr (operandByte s) (add16 s.pc 1))
  | .absolute => some (operandWord s)
  | .absoluteX => some (absoluteXAddr (operandWord s) s)
  | .absoluteY => some (absoluteYAddr (operandWord s) s)
  | .indirect => some (indirectAddr (operandWord s) s)
  | .indexedIndirect => some (indexedIndirectAddr (operandByte s) s)
  | .indirectIndexed => some (indirectIndexedAddr (operandByte s) s)

/-- `Resolve(mode)` (R90): the effective address, and the state with `PC` past the operand (R106). -/
def resolve (m : Mode) (s : State) : Option Addr × State := (effectiveAddress m s, s.advance m.width)

/-! ### Which cells the resolver and a step read -/

/-- The two addresses of a word access, low address first (`20_memory.md` R53, R57; D17, log 25). -/
def wordReads (a : Addr) : List Addr := [a, add16 a 1]

/-- The cells `Resolve(mode)` reads, in order (R105). -/
def resolverReads (m : Mode) (s : State) : List Addr :=
  match m with
  | .implicit => []
  | .accumulator => []
  | .immediate => []
  | .zeropage => [s.pc]
  | .zeropageX => [s.pc]
  | .zeropageY => [s.pc]
  | .relative => [s.pc]
  | .absolute => wordReads s.pc
  | .absoluteX => wordReads s.pc
  | .absoluteY => wordReads s.pc
  | .indirect => wordReads s.pc ++ wordReads (operandWord s)
  | .indexedIndirect => s.pc :: wordReads (zext16 (add8 (operandByte s) s.x))
  | .indirectIndexed => s.pc :: wordReads (zext16 (operandByte s))

/-- The cells one `Step` reads, in order: the opcode, the resolver's, the data byte (R57, R140). -/
def stepReads (s : State) : List Addr :=
  match decodeOpcode (s.mem.read s.pc) with
  | .brk => [s.pc]
  | .invalid _ => [s.pc]
  | .lda m => s.pc :: resolverReads m s.opcodeFetched ++ (effectiveAddress m s.opcodeFetched).toList

end Sys2Proof.Machine
end

