-- ==== Sys2Proof/Machine/Halt.lean ====
section
/-! DEFINITION. The halt instruction (`43_dispatch_and_halt.md` R142). -/

namespace Sys2Proof.Machine

/-- `Halt()` (R142): `Resolve(Implicit)`, `Debit(HALT_COST)`, `STATUS <- HALTED`; no flag, no stack, no vector. -/
def halt (s : State) : State := ((resolve .implicit s).2.debit Config.haltCost).setStatus .halted

/-- `BRK` (R142), on the state after the opcode fetch. -/
def execBrk (s : State) : Host.Outcome State Fault Refusal := .next (halt s)

end Sys2Proof.Machine
end

