-- ==== Sys2Proof/Machine/Flags.lean ====
section
/-! DEFINITION. The flag updater (`41_flag_updater.md`) and the packed flag byte `P` (`10_state.md` R33). -/

namespace Sys2Proof.Machine

/-- `UpdateZN(v)` (R110): `Z` is `v == 0`, `N` is `v[7]`, the other flags keep their values. -/
def State.updateZN (s : State) (v : Byte) : State :=
  { s with flags := { s.flags with z := v == 0, n := v.getLsbD 7 } }

/-- The 9-bit sum of `UpdateCV` (R113), a number from 0 to 511. -/
def sumCV (a m : Byte) (cin : Bool) : Nat := a.toNat + m.toNat + cin.toNat

/-- The result of `UpdateCV`: `s[7:0]` (R113). -/
def resultCV (a m : Byte) (cin : Bool) : Byte := BitVec.ofNat 8 (sumCV a m cin % 256)

/-- `UpdateCV(a, m, cin)` (R113; the spec's decision D16, log 15): the result and the state with `C` and `V` written.
No instruction invokes it. -/
def State.updateCV (s : State) (a m : Byte) (cin : Bool) : Byte × State :=
  ( resultCV a m cin,
    { s with
      flags :=
        { s.flags with
          c := (sumCV a m cin).testBit 8
          v := a.getLsbD 7 == m.getLsbD 7 && (resultCV a m cin).getLsbD 7 != a.getLsbD 7 } } )

/-- `pack` (R33): each flag at its place of `Config.pLayout`, the unused bit reading 1. -/
def pack (f : Flags) : Byte :=
  BitVec.ofNat 8
    (f.n.toNat * 2 ^ Config.pLayout.n + f.v.toNat * 2 ^ Config.pLayout.v + 2 ^ Config.pLayout.one
      + f.b.toNat * 2 ^ Config.pLayout.b + f.d.toNat * 2 ^ Config.pLayout.d + f.i.toNat * 2 ^ Config.pLayout.i
      + f.z.toNat * 2 ^ Config.pLayout.z + f.c.toNat * 2 ^ Config.pLayout.c)

/-- `unpack` (R33): the unused bit is ignored. -/
def unpack (p : Byte) : Flags :=
  { c := p.getLsbD Config.pLayout.c
    z := p.getLsbD Config.pLayout.z
    i := p.getLsbD Config.pLayout.i
    d := p.getLsbD Config.pLayout.d
    b := p.getLsbD Config.pLayout.b
    v := p.getLsbD Config.pLayout.v
    n := p.getLsbD Config.pLayout.n }

/-- The packed view `P` the host reads (R33). -/
def State.p (s : State) : Byte := pack s.flags

/-- The packed view `P` the host writes (R33). -/
def State.setP (s : State) (p : Byte) : State := { s with flags := unpack p }

end Sys2Proof.Machine
end

