-- ==== Sys2Proof/Machine/Load.lean ====
section
/-! DEFINITION. The load-accumulator family (`42_load_accumulator.md`): its costs, the shared end of every load, one
meaning per instruction, and the handler at its own interface. A meaning runs on the state after the opcode fetch, as
every pseudocode block of that file does ("the opcode byte has already been fetched"; log 1). -/

namespace Sys2Proof.Machine

/-- `COST_LDA(mode)` (R121); 0 for a mode the handler does not support, which has no cost. -/
def ldaCost : Mode → Nat
  | .immediate => 2
  | .zeropage => 3
  | .zeropageX => 4
  | .absolute => 4
  | .absoluteX => 4
  | .absoluteY => 4
  | .indexedIndirect => 6
  | .indirectIndexed => 5
  | .implicit => 0
  | .accumulator => 0
  | .zeropageY => 0
  | .relative => 0
  | .indirect => 0

/-- The cost of a load: its mode's cost, and `PAGE_CROSS_PENALTY` (0, R121 and D13; log 13) if the index crossed a page. -/
def loadCost (m : Mode) (crossed : Bool) : Nat :=
  ldaCost m + if crossed then Config.pageCrossPenalty else 0

/-- Sub-steps (b), (c), (d) of R120 with the byte `v` read: `A <- v`, `Debit(cost)`, `UpdateZN(v)`. -/
def finishLoad (v : Byte) (cost : Nat) (s : State) : State := ((s.setA v).debit cost).updateZN v

/-- R120 for an instruction whose operand is decoded: `PC` past the operand, then the load of the byte `v`. -/
def loadAccumulator (m : Mode) (v : Byte) (crossed : Bool) (s : State) : State :=
  finishLoad v (loadCost m crossed) (s.advance m.width)

/-- `LDA #$nn` (R122): the operand is the value, "v = d". -/
def execLdaImmediate (d : Byte) (s : State) : Host.Outcome State Fault Refusal :=
  .next (loadAccumulator .immediate d false s)

/-- `LDA $nn` (R123). -/
def execLdaZeropage (d : Byte) (s : State) : Host.Outcome State Fault Refusal :=
  .next (loadAccumulator .zeropage (s.mem.read (zeropageAddr d)) false s)

/-- `LDA $nn,X` (R124). -/
def execLdaZeropageX (d : Byte) (s : State) : Host.Outcome State Fault Refusal :=
  .next (loadAccumulator .zeropageX (s.mem.read (zeropageXAddr d s)) false s)

/-- `LDA $nnnn` (R125). -/
def execLdaAbsolute (w : Addr) (s : State) : Host.Outcome State Fault Refusal :=
  .next (loadAccumulator .absolute (s.mem.read w) false s)

/-- `LDA $nnnn,X` (R126). -/
def execLdaAbsoluteX (w : Addr) (s : State) : Host.Outcome State Fault Refusal :=
  .next (loadAccumulator .absoluteX (s.mem.read (absoluteXAddr w s)) (pageCrossed w (absoluteXAddr w s)) s)

/-- `LDA $nnnn,Y` (R127). -/
def execLdaAbsoluteY (w : Addr) (s : State) : Host.Outcome State Fault Refusal :=
  .next (loadAccumulator .absoluteY (s.mem.read (absoluteYAddr w s)) (pageCrossed w (absoluteYAddr w s)) s)

/-- `LDA ($nn,X)` (R128). -/
def execLdaIndexedIndirect (d : Byte) (s : State) : Host.Outcome State Fault Refusal :=
  .next (loadAccumulator .indexedIndirect (s.mem.read (indexedIndirectAddr d s)) false s)

/-- `LDA ($nn),Y` (R129). -/
def execLdaIndirectIndexed (d : Byte) (s : State) : Host.Outcome State Fault Refusal :=
  .next (loadAccumulator .indirectIndexed (s.mem.read (indirectIndexedAddr d s))
    (pageCrossed (indirectBase d s) (indirectIndexedAddr d s)) s)

/-- The load-accumulator handler at its own interface, `LDA(mode)` of R120: the mode is checked before the resolver is
called (R108, R130), the operand is read at `PC` by the resolver. `a` and `op` are the opcode's address and byte. -/
def ldaHandler (a : Addr) (op : Byte) (m : Mode) (s : State) : State :=
  if supportedLda m then
    match resolve m s with
    | (some ea, t) => finishLoad (t.mem.read ea) (ldaCost m) t
    | (none, _) => s.raiseModeFault a op
  else s.raiseModeFault a op

end Sys2Proof.Machine
end

