-- ==== Sys2Proof/Machine/Dispatch.lean ====
section
/-! DEFINITION. One arm per instruction of `30_encoding.md` R74. -/

namespace Sys2Proof.Machine

def exec (i : Instr) (s : State) : Host.Outcome State Fault Refusal :=
  match i with
  | .brk => Sys2Proof.Machine.execBrk s
  | .ldaIndexedIndirect d => Sys2Proof.Machine.execLdaIndexedIndirect d s
  | .ldaZeropage d => Sys2Proof.Machine.execLdaZeropage d s
  | .ldaImmediate d => Sys2Proof.Machine.execLdaImmediate d s
  | .ldaAbsolute w => Sys2Proof.Machine.execLdaAbsolute w s
  | .ldaIndirectIndexed d => Sys2Proof.Machine.execLdaIndirectIndexed d s
  | .ldaZeropageX d => Sys2Proof.Machine.execLdaZeropageX d s
  | .ldaAbsoluteY w => Sys2Proof.Machine.execLdaAbsoluteY w s
  | .ldaAbsoluteX w => Sys2Proof.Machine.execLdaAbsoluteX w s

end Sys2Proof.Machine
end

