-- ==== Sys2Proof/Machine/Step.lean ====
section
/-! DEFINITION. One step of the machine: `Step()` of `43_dispatch_and_halt.md` R140, one whole instruction. It reads
neither `STATUS` nor `CYC` (R141; log 21): the guard of a run is in `Machine/Run.lean`. -/

namespace Sys2Proof.Machine

/-- `Step()` (R140): fetch at `PC`, decode, run the instruction on the state after the opcode fetch. An invalid opcode
is reported and the machine goes on (R143); a decoder that pairs a handler with a mode it does not support raises
`ModeFault` (R162). The last arm is reached by no state (log 27). -/
def step (s : State) : Host.Outcome State Fault Refusal :=
  match decode s.fetchBytes with
  | .ok i _ => exec i s.opcodeFetched
  | .reject (.invalidOpcode op) => .next (s.opcodeFetched.invalidOpcode s.pc op)
  | .reject (.unsupportedMode op _) => .next (s.opcodeFetched.raiseModeFault s.pc op)
  | .reject .truncated => .fault .memBounds

/-- The state with the bytes of an instruction stored where `step` fetches next: at `PC` (R21). -/
def State.withFetchWord (s : State) (nbits w : Nat) : State :=
  { s with mem := Memory.load s.mem s.pc (tableBytes nbits w) }

end Sys2Proof.Machine
end

