-- ==== Sys2Proof/Machine/ByteStep.lean ====
section
/-! DEFINITION. `Step()` written as `43_dispatch_and_halt.md` R140 writes it: one opcode byte decoded by the table, the
handler called with a mode tag only, the operand read from memory by the resolver. `step` decodes the whole instruction
first; that the two agree is stated as an obligation. -/

namespace Sys2Proof.Machine

/-- `Step()` of R140, literally. -/
def byteStep (s : State) : State :=
  let a := s.pc
  let op := s.mem.read a
  let t := s.opcodeFetched
  match decodeOpcode op with
  | .lda m => ldaHandler a op m t
  | .brk => halt t
  | .invalid o => t.invalidOpcode a o

/-- The cycles `Step()` debits for the opcode byte `op` (`70_reset_and_hazards.md` R196). -/
def stepCost (op : Byte) : Nat :=
  match decodeOpcode op with
  | .lda m => ldaCost m
  | .brk => Config.haltCost
  | .invalid _ => Config.invalidCost

end Sys2Proof.Machine
end

