-- ==== Sys2Proof/Machine/Run.lean ====
section
/-! DEFINITION. The run: `Run(budget)` and its loop (`43_dispatch_and_halt.md` R144 to R150). -/

namespace Sys2Proof.Machine

/-- The start of `Run(budget)`: `CYC <- max(budget, 0)`, `STATUS <- RUNNING` (R144, R146). -/
def State.beginRun (s : State) (budget : Cycles) : State :=
  { s with cyc := BitVec.ofInt 64 (max budget.toInt 0), status := .running }

/-- The guard of the loop, tested before every fetch: `STATUS == RUNNING and CYC > 0` (R144, R147). -/
def State.mayFetch (s : State) : Bool := s.status == .running && decide (0 < s.cyc.toInt)

/-- The loop of `Run`, at most `n` turns. -/
def runLoop : Nat → State → Host.Outcome State Fault Refusal
  | 0, s => .next s
  | n + 1, s =>
    if s.mayFetch then
      match step s with
      | .next t => runLoop n t
      | .fault f => .fault f
      | .refused r => .refused r
    else .next s

/-- The end of `Run`: `if STATUS == RUNNING: STATUS <- EXHAUSTED` (R144). -/
def State.endRun (s : State) : State :=
  if s.status = .running then s.setStatus .exhausted else s

/-- `Run(budget)` (R144). R149: the budget itself is fuel enough for the loop (log 24). -/
def run (budget : Cycles) (s : State) : Host.Outcome State Fault Refusal :=
  match runLoop budget.toInt.toNat (s.beginRun budget) with
  | .next t => .next t.endRun
  | .fault f => .fault f
  | .refused r => .refused r

end Sys2Proof.Machine
end

