-- ==== Sys2Proof/Machine/HostMoves.lean ====
section
/-! DEFINITION. What the host may do, and when (`10_state.md` R41; `70_reset_and_hazards.md` R190, R193), and the codes
it reads (`10_state.md` R36; `60_exceptions.md` R160). -/

namespace Sys2Proof.Machine

/-- Reset of the block (R190): every field but the memory takes its reset value; the memory is not touched (R192). -/
def State.resetBlock (s : State) : State := { State.reset with mem := s.mem }

/-- A move of the host. `STATUS` and `REPORTS` are not the host's to write (R42; log 20). -/
inductive HostMove where
  /-- reset of the block (R190) -/
  | reset
  /-- `Run(budget)` (R144) -/
  | run (budget : Cycles)
  /-- `Step()` called directly (R141) -/
  | step
  /-- write `PC` -/
  | writePc (v : Addr)
  /-- write `SP` -/
  | writeSp (v : Byte)
  /-- write `A` -/
  | writeA (v : Byte)
  /-- write `X` -/
  | writeX (v : Byte)
  /-- write `Y` -/
  | writeY (v : Byte)
  /-- write the seven flags -/
  | writeFlags (f : Flags)
  /-- write the flags through the packed view `P` (R33) -/
  | writeP (p : Byte)
  /-- write `CYC` -/
  | writeCyc (v : Cycles)
  /-- `write_byte(addr, value)` (R52) -/
  | writeByte (a : Addr) (v : Byte)
  /-- `write_word(addr, value)` (R54) -/
  | writeWord (a : Addr) (w : Addr)
deriving DecidableEq, Repr

/-- The effect of a move made while the block is stopped. -/
def hostEffect (h : HostMove) (s : State) : Host.Outcome State Fault Refusal :=
  match h with
  | .reset => .next s.resetBlock
  | .run budget => Sys2Proof.Machine.run budget s
  | .step => Sys2Proof.Machine.step s
  | .writePc v => .next { s with pc := v }
  | .writeSp v => .next { s with sp := v }
  | .writeA v => .next { s with a := v }
  | .writeX v => .next { s with x := v }
  | .writeY v => .next { s with y := v }
  | .writeFlags f => .next { s with flags := f }
  | .writeP p => .next (s.setP p)
  | .writeCyc v => .next { s with cyc := v }
  | .writeByte a v => .next { s with mem := s.mem.write a v }
  | .writeWord a w => .next { s with mem := s.mem.writeWord a w }

/-- A move of the host: reset at any time (R190, R150), any other move only while the block is stopped; "A model gives
the host no move during a run" (R41; log 19). -/
def hostMove (h : HostMove) (s : State) : Host.Outcome State Fault Refusal :=
  if s.status = .running ∧ h ≠ .reset then .refused .hostMoveDuringRun else hostEffect h s

/-- The code of `STATUS` (R36), three bits wide (D18). -/
def Status.code : Status → BitVec 3
  | .reset => 0
  | .running => 1
  | .exhausted => 2
  | .halted => 3
  | .modeFault => 4

/-- The code of an error kind (R160), two bits wide (D18). -/
def ErrorKind.code : ErrorKind → BitVec 2
  | .invalidOpcode => 1
  | .modeFault => 2
  | .memBounds => 3

/-- The triple `(code, addr, op)` of a record (R37). -/
def Report.triple (r : Report) : BitVec 2 × Addr × Byte := (r.kind.code, r.addr, r.op)

end Sys2Proof.Machine
end

