-- ==== Sys2Proof/Safety.lean ====
section
/-! DEFINITION. The terms claims are stated in: what a load leaves, the cells of memory as numbers, an instruction
standing at `PC`, the steps of a run, what "gone wrong" means, and the invariant of the machine. -/

namespace Sys2Proof.Machine

/-- The word in memory at a numeric address, low byte first, the successor of 65535 being 0 (`20_memory.md` R53, R56),
as a number and without the model's own word operations. -/
def wordAt (m : Memory) (n : Nat) : Nat :=
  (Memory.byteAt m n).toNat + 256 * (Memory.byteAt m ((n + 1) % 65536)).toNat

/-- The opcode byte the next step fetches (`43_dispatch_and_halt.md` R140). -/
def State.opcode (s : State) : Byte := s.mem.read s.pc

/-- The bytes of an instruction stand in memory from `PC` on (`30_encoding.md` R70). -/
def State.standsAtPc (s : State) (i : Instr) : Prop :=
  s.fetchBytes.take (encode i).length = encode i

/-- What a load of the byte `v` leaves, and everything it leaves alone (`42_load_accumulator.md` R122 to R129, R131):
`PC` moved by `width` modulo 65536, `CYC` lowered by `cost` but not below 0, `A`, `Z` and `N` from `v`, the rest as before. -/
structure Loaded (s t : State) (v : Byte) (width cost : Nat) : Prop where
  accumulator : t.a = v
  counter : t.pc.toNat = (s.pc.toNat + width) % 65536
  cycles : t.cyc.toInt = max (s.cyc.toInt - (cost : Int)) 0
  zero : t.flags.z = true ↔ v.toNat = 0
  negative : t.flags.n = true ↔ 128 ≤ v.toNat
  carry : t.flags.c = s.flags.c
  interrupt : t.flags.i = s.flags.i
  decimal : t.flags.d = s.flags.d
  brk : t.flags.b = s.flags.b
  overflow : t.flags.v = s.flags.v
  stack : t.sp = s.sp
  indexX : t.x = s.x
  indexY : t.y = s.y
  status : t.status = s.status
  reports : t.reports = s.reports
  memory : t.mem = s.mem

/-- `GuardedSteps k s t`: `k` steps lead from `s` to `t`, the guard of `Run` holding before each (R144, R147). -/
inductive GuardedSteps : Nat → State → State → Prop where
  | done (s : State) : GuardedSteps 0 s s
  | turn (k : Nat) (s t u : State) : s.mayFetch = true → step s = .next t → GuardedSteps k t u → GuardedSteps (k + 1) s u

/-- "A model's notion of 'gone wrong' is: STATUS = MODE_FAULT" (`60_exceptions.md` R172). -/
def State.goneWrong (s : State) : Prop := s.status = .modeFault

/-- The invariant of the machine: canonical memory; a counter that is not negative (`10_state.md` R35); every record
of `REPORTS` precise, that is, it names an invalid opcode byte and the address where that byte stands
(`60_exceptions.md` R161); and nothing gone wrong (R172). -/
structure State.Inv (s : State) : Prop where
  memory : s.mem.wf
  counter : 0 ≤ s.cyc.toInt
  precise : ∀ r ∈ s.reports, r.kind = .invalidOpcode ∧ decodeOpcode r.op = .invalid r.op ∧ s.mem.read r.addr = r.op
  running : ¬ s.goneWrong

end Sys2Proof.Machine
end

