-- ==== Sys2Proof/Certificates/Slice0/Obligations.lean ====
section
/-! DEFINITION. The statements for the provers, from the numbered rules of spec/. Rules are cited as R<n>; a statement that
rests on one of the spec's own decisions says so and names it (D<n> of `92_eei_decisions.md`), and has basis 'derived'.
The eight load statements rest on D4 for the opcode byte (log 7) and on D7 for the saturation of `CYC` (log 10), those that
read a word also on D1 and D2 (log 5 and 6); what else each rests on stands with it. -/

open Sys2Proof Sys2Proof.Machine

/-! ### Encoding -/

/-- The nine rows of R74, each opcode written bit by bit from the table's binary column, with operand bytes as R71 and
R79 lay them out, decode to their instruction, and the bytes after it are left. The byte values rest on the spec's
decisions D4 and D5 (log 7), the order of operand bytes on D1 (log 5). -/
def Obligations.TheWordsOfTheTableDecodeToTheirInstructions : Prop :=
  decode [0b00000000, 0xEE] = .ok .brk [0xEE] ∧
  decode [0b10100001, 0x20, 0xEE] = .ok (.ldaIndexedIndirect 0x20) [0xEE] ∧
  decode [0b10100101, 0x10, 0xEE] = .ok (.ldaZeropage 0x10) [0xEE] ∧
  decode [0b10101001, 0x45, 0xEE] = .ok (.ldaImmediate 0x45) [0xEE] ∧
  decode [0b10101101, 0x34, 0x12, 0xEE] = .ok (.ldaAbsolute 0x1234) [0xEE] ∧
  decode [0b10110001, 0x24, 0xEE] = .ok (.ldaIndirectIndexed 0x24) [0xEE] ∧
  decode [0b10110101, 0xFF, 0xEE] = .ok (.ldaZeropageX 0xFF) [0xEE] ∧
  decode [0b10111001, 0x00, 0x40, 0xEE] = .ok (.ldaAbsoluteY 0x4000) [0xEE] ∧
  decode [0b10111101, 0xFC, 0x2F, 0xEE] = .ok (.ldaAbsoluteX 0x2FFC) [0xEE]

/-- Decoding the encoding of any instruction, whatever bytes follow it, gives it back with every operand at every value,
and leaves the bytes that follow. -/
def Obligations.DecodeOfEncodeIsTheInstruction : Prop :=
  ∀ (i : Instr) (rest : List Byte), decode (encode i ++ rest) = .ok i rest

/-- Whatever the decoder reads is exactly the encoding of the instruction it answers: one word, one meaning. -/
def Obligations.DecodedBytesAreTheEncoding : Prop :=
  ∀ (bs : List Byte) (i : Instr) (rest : List Byte), decode bs = .ok i rest → bs = encode i ++ rest

/-- `Decode` of R75 as the spec writes it, byte by byte. The nine values rest on D4 and D5 (log 7). -/
def Obligations.DecodeFollowsTheSpecsCases : Prop :=
  ∀ op : Byte, decodeOpcode op =
    if op = 0x00 then .brk
    else if op = 0xA1 then .lda .indexedIndirect
    else if op = 0xA5 then .lda .zeropage
    else if op = 0xA9 then .lda .immediate
    else if op = 0xAD then .lda .absolute
    else if op = 0xB1 then .lda .indirectIndexed
    else if op = 0xB5 then .lda .zeropageX
    else if op = 0xB9 then .lda .absoluteY
    else if op = 0xBD then .lda .absoluteX
    else .invalid op

/-- The 247 other bytes are invalid opcodes (R76), each one byte long (R78), refused by name by the decoder whatever
follows them; the bytes with `(op & 0xE3) == 0xA1` are the loads (R74's remark, derived from the values of D4). -/
def Obligations.TheOther247OpcodesAreInvalid : Prop :=
  (∀ (op : Byte) (rest : List Byte),
    op ∉ ([0x00, 0xA1, 0xA5, 0xA9, 0xAD, 0xB1, 0xB5, 0xB9, 0xBD] : List Byte) →
      decode (op :: rest) = .reject (.invalidOpcode op) ∧ opcodeLength op = 1) ∧
  ((List.range 256).filter (fun n => decodeOpcode (BitVec.ofNat 8 n) == .invalid (BitVec.ofNat 8 n))).length = 247 ∧
  (∀ op : Byte, (∃ m, decodeOpcode op = .lda m) ↔ op &&& 0xE3 = 0xA1)

/-- The length of an instruction is one more than its mode's operand width, known from its first byte (R70, R78). -/
def Obligations.TheLengthIsKnownFromTheFirstByte : Prop :=
  ∀ i : Instr, (encode i).length = 1 + i.mode.width ∧
    ∃ op operand, encode i = op :: operand ∧ opcodeLength op = (encode i).length

/-! ### The step -/

/-- When the bytes at `PC` decode to an instruction, `step` is `exec` of it on the state after the opcode fetch, that
is, with `PC` one further (R140); the operand's bytes are passed by `exec` itself, as the resolver does (R106). -/
def Obligations.StepRunsTheDecodedInstruction : Prop :=
  ∀ (s : State) (i : Instr) (rest : List Byte),
    decode s.fetchBytes = .ok i rest → step s = exec i { s with pc := s.pc + 1 }

/-- When the encoding of an instruction stands in memory from `PC` on, across the top of memory too, `step` runs it. -/
def Obligations.StepRunsTheEncodedInstruction : Prop :=
  ∀ (s : State) (i : Instr), s.standsAtPc i → step s = exec i { s with pc := s.pc + 1 }

/-- `step`, which decodes a whole instruction and gives its operand to `exec`, is `Step()` as R140 writes it: one opcode
byte decoded, the handler called with the mode tag alone, the operand read at `PC` by the resolver (R90, R120). So it
is total: it never stops with a fault or a refusal. -/
def Obligations.StepIsTheByteLevelStep : Prop :=
  ∀ s : State, step s = .next (byteStep s)

/-- An opcode byte without a row is reported with its address, costs one cycle, is passed over, and nothing else
changes (R143, R161; policy and cost are the spec's decision D6, log 9). -/
def Obligations.AnInvalidOpcodeIsReportedAndPassed : Prop :=
  ∀ s : State, s.opcode ∉ ([0x00, 0xA1, 0xA5, 0xA9, 0xAD, 0xB1, 0xB5, 0xB9, 0xBD] : List Byte) →
    ∃ t, step s = .next t ∧ t.pc.toNat = (s.pc.toNat + 1) % 65536 ∧ t.cyc.toInt = max (s.cyc.toInt - 1) 0 ∧
      t.reports.map Report.triple = s.reports.map Report.triple ++ [(1, s.pc, s.opcode)] ∧
      t = { s with pc := t.pc, cyc := t.cyc, reports := t.reports }

/-- `BRK` ends the run and does nothing else: no flag, no push, no vector, seven cycles (R142; the byte, the cost and
the absence of side effects are the spec's decision D5, log 8). `exec` runs on the state after the opcode fetch. -/
def Obligations.BrkHaltsAndDoesNothingElse : Prop :=
  ∀ s : State,
    (∃ t, exec .brk s = .next t ∧ t.status = .halted ∧ t.cyc.toInt = max (s.cyc.toInt - 7) 0 ∧
      t = { s with cyc := t.cyc, status := t.status }) ∧
    (s.opcode = 0x00 → ∃ t, step s = .next t ∧ t.status = .halted ∧ t.cyc.toInt = max (s.cyc.toInt - 7) 0 ∧
      t.pc.toNat = (s.pc.toNat + 1) % 65536 ∧ t = { s with pc := t.pc, cyc := t.cyc, status := t.status })

/-- `LDA #$nn` (R122): loads its operand byte; 2 cycles. First clause: `exec` after the opcode fetch; second: a step
from the bytes `A9 d` in memory. -/
def Obligations.LdaImmediateLoadsItsOperand : Prop :=
  ∀ (d : Byte) (s : State),
    (∃ t, exec (.ldaImmediate d) s = .next t ∧ Loaded s t d 1 2) ∧
    (s.opcode = 0xA9 → Memory.byteAt s.mem ((s.pc.toNat + 1) % 65536) = d →
      ∃ t, step s = .next t ∧ Loaded s t d 2 2)

/-- `LDA $nn` (R123): loads the byte at the zero-page address; 3 cycles. -/
def Obligations.LdaZeropageLoadsFromTheZeroPage : Prop :=
  ∀ (d : Byte) (s : State),
    (∃ t, exec (.ldaZeropage d) s = .next t ∧ Loaded s t (Memory.byteAt s.mem d.toNat) 1 3) ∧
    (s.opcode = 0xA5 → Memory.byteAt s.mem ((s.pc.toNat + 1) % 65536) = d →
      ∃ t, step s = .next t ∧ Loaded s t (Memory.byteAt s.mem d.toNat) 2 3)

/-- `LDA $nn,X` (R124): the address wraps inside the zero page; 4 cycles. -/
def Obligations.LdaZeropageXWrapsInsideTheZeroPage : Prop :=
  ∀ (d : Byte) (s : State),
    (∃ t, exec (.ldaZeropageX d) s = .next t ∧ Loaded s t (Memory.byteAt s.mem ((d.toNat + s.x.toNat) % 256)) 1 4) ∧
    (s.opcode = 0xB5 → Memory.byteAt s.mem ((s.pc.toNat + 1) % 65536) = d →
      ∃ t, step s = .next t ∧ Loaded s t (Memory.byteAt s.mem ((d.toNat + s.x.toNat) % 256)) 2 4)

/-- `LDA $nnnn` (R125): any address, low operand byte first; 4 cycles. -/
def Obligations.LdaAbsoluteLoadsFromItsAddress : Prop :=
  ∀ (w : Addr) (s : State),
    (∃ t, exec (.ldaAbsolute w) s = .next t ∧ Loaded s t (Memory.byteAt s.mem w.toNat) 2 4) ∧
    (s.opcode = 0xAD → wordAt s.mem ((s.pc.toNat + 1) % 65536) = w.toNat →
      ∃ t, step s = .next t ∧ Loaded s t (Memory.byteAt s.mem w.toNat) 3 4)

/-- `LDA $nnnn,X` (R126): base plus the unsigned index modulo 65536; 4 cycles, page crossed or not
(D13, log 13). -/
def Obligations.LdaAbsoluteXAddsTheIndex : Prop :=
  ∀ (w : Addr) (s : State),
    (∃ t, exec (.ldaAbsoluteX w) s = .next t ∧
      Loaded s t (Memory.byteAt s.mem ((w.toNat + s.x.toNat) % 65536)) 2 4) ∧
    (s.opcode = 0xBD → wordAt s.mem ((s.pc.toNat + 1) % 65536) = w.toNat →
      ∃ t, step s = .next t ∧ Loaded s t (Memory.byteAt s.mem ((w.toNat + s.x.toNat) % 65536)) 3 4)

/-- `LDA $nnnn,Y` (R127): as `LDA $nnnn,X` with `Y` (D13, log 13). -/
def Obligations.LdaAbsoluteYAddsTheIndex : Prop :=
  ∀ (w : Addr) (s : State),
    (∃ t, exec (.ldaAbsoluteY w) s = .next t ∧
      Loaded s t (Memory.byteAt s.mem ((w.toNat + s.y.toNat) % 65536)) 2 4) ∧
    (s.opcode = 0xB9 → wordAt s.mem ((s.pc.toNat + 1) % 65536) = w.toNat →
      ∃ t, step s = .next t ∧ Loaded s t (Memory.byteAt s.mem ((w.toNat + s.y.toNat) % 65536)) 3 4)

/-- `LDA ($nn,X)` (R128): the index addition wraps inside the zero page, the pointer's second byte is at the next
address, also from `0x00FF` to `0x0100` (D26, log 16); 6 cycles. -/
def Obligations.LdaIndexedIndirectLoadsThroughThePointer : Prop :=
  ∀ (d : Byte) (s : State),
    (∃ t, exec (.ldaIndexedIndirect d) s = .next t ∧
      Loaded s t (Memory.byteAt s.mem (wordAt s.mem ((d.toNat + s.x.toNat) % 256))) 1 6) ∧
    (s.opcode = 0xA1 → Memory.byteAt s.mem ((s.pc.toNat + 1) % 65536) = d →
      ∃ t, step s = .next t ∧ Loaded s t (Memory.byteAt s.mem (wordAt s.mem ((d.toNat + s.x.toNat) % 256))) 2 6)

/-- `LDA ($nn),Y` (R129): `Y` is added to the pointer modulo 65536; 5 cycles, page crossed or not
(D13 and D26, log 13 and 16). -/
def Obligations.LdaIndirectIndexedAddsTheIndexToThePointer : Prop :=
  ∀ (d : Byte) (s : State),
    (∃ t, exec (.ldaIndirectIndexed d) s = .next t ∧
      Loaded s t (Memory.byteAt s.mem ((wordAt s.mem d.toNat + s.y.toNat) % 65536)) 1 5) ∧
    (s.opcode = 0xB1 → Memory.byteAt s.mem ((s.pc.toNat + 1) % 65536) = d →
      ∃ t, step s = .next t ∧ Loaded s t (Memory.byteAt s.mem ((wordAt s.mem d.toNat + s.y.toNat) % 65536)) 2 5)

/-! ### The handler -/

/-- The handler contract of R120: with a supported mode the handler resolves the address, loads the byte there, debits
the mode's cost and updates the flags; with any other it raises `ModeFault` and does nothing else (saturation is D7, the
mode fault D21; log 10 and 13). -/
def Obligations.TheLoadHandlerKeepsItsContract : Prop :=
  ∀ (a : Addr) (op : Byte) (m : Mode) (s : State),
    (supportedLda m = true → ∃ ea : Addr, (resolve m s).1 = some ea ∧
      Loaded s (ldaHandler a op m s) (Memory.byteAt s.mem ea.toNat) m.width (ldaCost m)) ∧
    (supportedLda m = false → ldaHandler a op m s = s.raiseModeFault a op)

/-- The modes of the handler and their costs, whether or not the index crosses a page (R121; the flat cost and the
mode set rest on D13 and D21, log 13). -/
def Obligations.TheCostOfALoadIsItsModes : Prop :=
  ∀ (m : Mode) (crossed : Bool),
    (supportedLda m = true ↔
      m ∈ [Mode.immediate, .zeropage, .zeropageX, .absolute, .absoluteX, .absoluteY, .indexedIndirect, .indirectIndexed]) ∧
    (supportedLda m = true → loadCost m crossed =
      if m = .immediate then 2 else if m = .zeropage then 3 else if m = .indexedIndirect then 6
      else if m = .indirectIndexed then 5 else 4)

/-- A mode fault changes `STATUS` and adds the record `(2, a, op)` and changes nothing else (R130, R162; the record's
shape is the model's reading, log 18); and no opcode byte leads to one (R130). -/
def Obligations.AModeFaultStopsTheRunAndIsUnreachable : Prop :=
  (∀ (a : Addr) (op : Byte) (m : Mode) (s : State), supportedLda m = false →
    (ldaHandler a op m s).reports.map Report.triple = s.reports.map Report.triple ++ [(2, a, op)] ∧
    ldaHandler a op m s = { s with status := .modeFault, reports := (ldaHandler a op m s).reports }) ∧
  (∀ (op : Byte) (m : Mode), decodeOpcode op = .lda m → supportedLda m = true) ∧
  (∀ s : State, ∃ t, step s = .next t ∧ (t.status = .modeFault → s.status = .modeFault))

/-! ### The resolver -/

/-- Mode Immediate (R93): the address is `PC` itself and `PC` moves by one; nothing else is written. -/
def Obligations.ResolveImmediateIsTheOperandsOwnAddress : Prop :=
  ∀ s : State, (resolve .immediate s).1 = some s.pc ∧
    (resolve .immediate s).2.pc.toNat = (s.pc.toNat + 1) % 65536 ∧
    (resolve .immediate s).2 = { s with pc := (resolve .immediate s).2.pc }

/-- Modes Implicit and Accumulator (R91, R92): no address, `PC` unchanged (that the answer is "none" is D15, log 14). -/
def Obligations.ResolveWithoutOperandHasNoAddress : Prop :=
  ∀ s : State, resolve .implicit s = (none, s) ∧ resolve .accumulator s = (none, s)

/-- Modes Zeropage, Zeropage-X and Zeropage-Y (R94, R95, R96): the operand byte, the unsigned index added modulo 256;
`PC` moves by one and nothing else is written. -/
def Obligations.ResolveZeroPageModesStayInTheZeroPage : Prop :=
  ∀ s : State,
    (∃ ea, (resolve .zeropage s).1 = some ea ∧ ea.toNat = (Memory.byteAt s.mem s.pc.toNat).toNat) ∧
    (∃ ea, (resolve .zeropageX s).1 = some ea ∧
      ea.toNat = ((Memory.byteAt s.mem s.pc.toNat).toNat + s.x.toNat) % 256) ∧
    (∃ ea, (resolve .zeropageY s).1 = some ea ∧
      ea.toNat = ((Memory.byteAt s.mem s.pc.toNat).toNat + s.y.toNat) % 256) ∧
    ∀ m ∈ [Mode.zeropage, .zeropageX, .zeropageY],
      (resolve m s).2.pc.toNat = (s.pc.toNat + 1) % 65536 ∧ (resolve m s).2 = { s with pc := (resolve m s).2.pc }

/-- Modes Absolute, Absolute-X and Absolute-Y (R98, R99, R100): the operand word, low byte first, the unsigned index
added modulo 65536 (D1 and D2, log 5 and 6); `PC` moves by two and nothing else is written. -/
def Obligations.ResolveAbsoluteModesAddTheIndexToTheWord : Prop :=
  ∀ s : State,
    (∃ ea, (resolve .absolute s).1 = some ea ∧ ea.toNat = wordAt s.mem s.pc.toNat) ∧
    (∃ ea, (resolve .absoluteX s).1 = some ea ∧ ea.toNat = (wordAt s.mem s.pc.toNat + s.x.toNat) % 65536) ∧
    (∃ ea, (resolve .absoluteY s).1 = some ea ∧ ea.toNat = (wordAt s.mem s.pc.toNat + s.y.toNat) % 65536) ∧
    ∀ m ∈ [Mode.absolute, .absoluteX, .absoluteY],
      (resolve m s).2.pc.toNat = (s.pc.toNat + 2) % 65536 ∧ (resolve m s).2 = { s with pc := (resolve m s).2.pc }

/-- Modes Indirect, Indexed-Indirect and Indirect-Indexed (R101, R102, R103): the pointer's second byte is at the next
address at the end of a page too (the spec's decision D26, log 16). -/
def Obligations.ResolveIndirectModesReadTheNextAddress : Prop :=
  ∀ s : State,
    (∃ ea, (resolve .indirect s).1 = some ea ∧ ea.toNat = wordAt s.mem (wordAt s.mem s.pc.toNat)) ∧
    (∃ ea, (resolve .indexedIndirect s).1 = some ea ∧
      ea.toNat = wordAt s.mem (((Memory.byteAt s.mem s.pc.toNat).toNat + s.x.toNat) % 256)) ∧
    (∃ ea, (resolve .indirectIndexed s).1 = some ea ∧
      ea.toNat = (wordAt s.mem (Memory.byteAt s.mem s.pc.toNat).toNat + s.y.toNat) % 65536) ∧
    (resolve .indirect s).2.pc.toNat = (s.pc.toNat + 2) % 65536 ∧
    (resolve .indexedIndirect s).2.pc.toNat = (s.pc.toNat + 1) % 65536 ∧
    (resolve .indirectIndexed s).2.pc.toNat = (s.pc.toNat + 1) % 65536

/-- Mode Relative (R97): the address after the operand plus the signed byte, modulo 65536 at both ends. That `PC` moves
by one rests on the spec's decision D14 (conflict C1, log 14). -/
def Obligations.ResolveRelativeAddsTheSignedOffset : Prop :=
  ∀ s : State, ∃ ea, (resolve .relative s).1 = some ea ∧
    (ea.toNat : Int) = ((s.pc.toNat : Int) + 1 + (Memory.byteAt s.mem s.pc.toNat).toInt) % 65536 ∧
    (resolve .relative s).2.pc.toNat = (s.pc.toNat + 1) % 65536 ∧
    (resolve .relative s).2 = { s with pc := (resolve .relative s).2.pc }

/-- R106: the advance of `PC` is the operand width of the mode, whatever memory, `X` and `Y` hold (that Relative
moves it by one is D14, log 14; the wrap of `PC` is D3, log 6). -/
def Obligations.ResolveAdvancesPcByTheOperandWidth : Prop :=
  ∀ (m : Mode) (s : State), (resolve m s).2.pc.toNat =
    (s.pc.toNat +
      if m ∈ [Mode.implicit, .accumulator] then 0
      else if m ∈ [Mode.absolute, .absoluteX, .absoluteY, .indirect] then 2 else 1) % 65536

/-- R90: the resolver reads `PC`, `X`, `Y` and memory only, answers no address for two modes only, and writes `PC` only.
That Implicit and Accumulator are the two is the spec's decision D15 and the width of Relative D14 (log 14); the wrap of
`PC` is D3 (log 6). -/
def Obligations.ResolveReadsPcXYAndMemoryAndWritesPc : Prop :=
  ∀ (m : Mode) (s u : State),
    (resolve m s).2 = { s with pc := (resolve m s).2.pc } ∧
    (resolve m s).2.pc.toNat = (s.pc.toNat + m.width) % 65536 ∧
    ((resolve m s).1 = none ↔ m = .implicit ∨ m = .accumulator) ∧
    (u.pc = s.pc → u.x = s.x → u.y = s.y → u.mem = s.mem →
      (resolve m u).1 = (resolve m s).1 ∧ (resolve m u).2.pc = (resolve m s).2.pc)

/-- R107: the mode tag alone selects the index register; the index is unsigned; `A` and `SP` never feed the resolver
(the pointers of the last two clauses are read by D1, D2 and D26, log 5, 6 and 16). -/
def Obligations.TheModeSelectsTheIndexRegister : Prop :=
  (∀ m : Mode, (∀ (s : State) (v : Byte), effectiveAddress m { s with x := v } = effectiveAddress m s) ↔
    m ∉ [Mode.zeropageX, .absoluteX, .indexedIndirect]) ∧
  (∀ m : Mode, (∀ (s : State) (v : Byte), effectiveAddress m { s with y := v } = effectiveAddress m s) ↔
    m ∉ [Mode.zeropageY, .absoluteY, .indirectIndexed]) ∧
  (∀ (m : Mode) (s : State) (v w : Byte), effectiveAddress m { s with a := v, sp := w } = effectiveAddress m s) ∧
  (∀ (s : State) (d : Byte) (w : Addr),
    (zeropageXAddr d s).toNat = (d.toNat + s.x.toNat) % 256 ∧ (zeropageYAddr d s).toNat = (d.toNat + s.y.toNat) % 256 ∧
    (absoluteXAddr w s).toNat = (w.toNat + s.x.toNat) % 65536 ∧ (absoluteYAddr w s).toNat = (w.toNat + s.y.toNat) % 65536 ∧
    (indexedIndirectAddr d s).toNat = wordAt s.mem ((d.toNat + s.x.toNat) % 256) ∧
    (indirectIndexedAddr d s).toNat = (wordAt s.mem d.toNat + s.y.toNat) % 65536)

/-- R105: how many cells the resolver reads in each mode, and that its address depends on no other cell. -/
def Obligations.TheResolverReadsTheListedCellsOnly : Prop :=
  ∀ (m : Mode) (s : State) (other : Memory),
    (resolverReads m s).length =
      (if m ∈ [Mode.implicit, .accumulator, .immediate] then 0
       else if m ∈ [Mode.zeropage, .zeropageX, .zeropageY, .relative] then 1
       else if m ∈ [Mode.absolute, .absoluteX, .absoluteY] then 2
       else if m = .indirect then 4 else 3) ∧
    ((∀ a ∈ resolverReads m s, other.read a = s.mem.read a) →
      (resolve m { s with mem := other }).1 = (resolve m s).1)

/-- A step reads at most six cells (R140), and two memories that agree on them give the same step. -/
def Obligations.AStepReadsAtMostSixCells : Prop :=
  ∀ (s : State) (other : Memory), (stepReads s).length ≤ 6 ∧
    ∃ t, step s = .next t ∧
      ((∀ a ∈ stepReads s, other.read a = s.mem.read a) → step { s with mem := other } = .next { t with mem := other })

/-! ### The flag updater -/

/-- `UpdateZN` (R110), with the equivalent form of the negative test. -/
def Obligations.UpdateZNFollowsTheValue : Prop :=
  ∀ (s : State) (v : Byte),
    ((s.updateZN v).flags.z = true ↔ v.toNat = 0) ∧ ((s.updateZN v).flags.n = true ↔ 128 ≤ v.toNat) ∧
    ((s.updateZN v).flags.n = true ↔ v ||| 0x7F = 0xFF) ∧
    s.updateZN v = { s with flags := { s.flags with z := (s.updateZN v).flags.z, n := (s.updateZN v).flags.n } }

/-- `UpdateCV` (R113, defined by the spec's decision D16, log 15) said by numbers: result and carry are the sum, overflow
is a signed sum outside -128 to 127, the other flags and the rest of the state are unchanged. -/
def Obligations.UpdateCVIsTheNineBitSum : Prop :=
  ∀ (s : State) (a m : Byte) (cin : Bool),
    (s.updateCV a m cin).1.toNat + 256 * (s.updateCV a m cin).2.flags.c.toNat = a.toNat + m.toNat + cin.toNat ∧
    ((s.updateCV a m cin).2.flags.v = true ↔
      a.toInt + m.toInt + (cin.toNat : Int) < -128 ∨ 127 < a.toInt + m.toInt + (cin.toNat : Int)) ∧
    (s.updateCV a m cin).2 =
      { s with flags := { s.flags with c := (s.updateCV a m cin).2.flags.c, v := (s.updateCV a m cin).2.flags.v } }

/-- The packed byte `P` and its laws (R33; the layout is the spec's decision D11, log 12). -/
def Obligations.PackAndUnpackAgree : Prop :=
  (∀ f : Flags, (pack f).toNat =
    f.n.toNat * 128 + f.v.toNat * 64 + 32 + f.b.toNat * 16 + f.d.toNat * 8 + f.i.toNat * 4 + f.z.toNat * 2 + f.c.toNat ∧
    unpack (pack f) = f) ∧
  (∀ p : Byte, pack (unpack p) = p ||| 0x20)

/-- R34: after a load `Z` and `N` are functions of the loaded byte, which is the new `A`, and the other five flags keep
their values; all in one step. -/
def Obligations.FlagsAfterALoadFollowTheLoadedByte : Prop :=
  ∀ (i : Instr) (s : State), i.handler = .load →
    ∃ t, exec i s = .next t ∧ (t.flags.z = true ↔ t.a.toNat = 0) ∧ (t.flags.n = true ↔ 128 ≤ t.a.toNat) ∧
      t.flags.c = s.flags.c ∧ t.flags.i = s.flags.i ∧ t.flags.d = s.flags.d ∧ t.flags.b = s.flags.b ∧
      t.flags.v = s.flags.v

/-! ### Memory -/

/-- `MemRead` and `MemWrite` of one byte (R51, R52): a write changes its own cell and no other, and no instruction
performs one. -/
def Obligations.AByteWriteChangesOneCell : Prop :=
  (∀ (m : Memory) (a b : Addr) (v : Byte), (m.write a v).read b = if b = a then v else m.read b) ∧
  (∀ s : State, ∃ t, step s = .next t ∧ ∀ a : Addr, t.mem.read a = s.mem.read a)

/-- Words are two bytes, the low one first, the successor of `0xFFFF` being `0x0000`, reads, writes and mixed widths
alike (R53 to R56; byte order and wrap are the spec's decisions D1 and D2, log 5 and log 6). -/
def Obligations.WordsAreTwoBytesLowByteFirst : Prop :=
  ∀ (m : Memory) (a w : Addr),
    (m.readWord a).toNat = (m.read a).toNat + 256 * (m.read (a + 1)).toNat ∧
    ((m.writeWord a w).read a).toNat = w.toNat % 256 ∧
    ((m.writeWord a w).read (a + 1)).toNat = w.toNat / 256 ∧
    (∀ b : Addr, b ≠ a → b ≠ a + 1 → (m.writeWord a w).read b = m.read b)

/-- A word written is the word read back, at every address, the last one included (R61). -/
def Obligations.AWordWrittenIsReadBack : Prop :=
  ∀ (m : Memory) (a w : Addr), (m.writeWord a w).readWord a = w

/-- Canonical memories that read the same at every address of the memory are the same list (the model's own form of
memory, log 23). -/
def Obligations.CanonicalMemoriesThatReadAlikeAreEqual : Prop :=
  ∀ m k : Memory, m.wf → k.wf → (∀ a : Addr, m.read a = k.read a) → m = k

/-! ### The whole machine -/

/-- The invariant `State.Inv` is kept by every step: canonical memory, a counter not below zero (R35), precise reports
(R161), no mode fault (R130, R172). -/
def Obligations.EveryStepKeepsTheInvariant : Prop :=
  ∀ s t : State, s.Inv → step s = .next t → t.Inv

/-- The invariant holds at reset. -/
def Obligations.ResetMeetsTheInvariant : Prop := State.reset.Inv

/-- The writers table of R42: no step writes memory, `X`, `Y`, `SP`, or the flags `C`, `I`, `D`, `B`, `V`; and only a
load writes `A`, `Z` and `N`. -/
def Obligations.AStepWritesOnlyWhatTheTableNames : Prop :=
  ∀ s : State, ∃ t, step s = .next t ∧ t.mem = s.mem ∧ t.x = s.x ∧ t.y = s.y ∧ t.sp = s.sp ∧
    t.flags.c = s.flags.c ∧ t.flags.i = s.flags.i ∧ t.flags.d = s.flags.d ∧ t.flags.b = s.flags.b ∧
    t.flags.v = s.flags.v ∧ (∀ a : Addr, t.mem.read a = s.mem.read a) ∧
    ((∀ m, decodeOpcode s.opcode ≠ .lda m) → t.a = s.a ∧ t.flags = s.flags)

/-- R164: the interrupt-disable flag is state that nothing reads; changing it changes no behaviour. -/
def Obligations.TheInterruptFlagChangesNoBehaviour : Prop :=
  ∀ (s : State) (b : Bool), ∃ t, step s = .next t ∧
    step { s with flags := { s.flags with i := b } } = .next { t with flags := { t.flags with i := b } }

/-- No instruction reads `A`, `SP` or any flag (R22, R23, R26 to R32): a step from other values of them differs in
them alone, and not in what a load writes. -/
def Obligations.NoStepReadsTheAccumulatorStackPointerOrFlags : Prop :=
  ∀ (s : State) (a sp : Byte) (f : Flags), ∃ t u,
    step s = .next t ∧ step { s with a := a, sp := sp, flags := f } = .next u ∧
    { u with a := t.a, sp := t.sp, flags := t.flags } = t ∧ u.sp = sp ∧
    (∀ m, decodeOpcode s.opcode = .lda m →
      u.a = t.a ∧ u.flags = { f with z := t.flags.z, n := t.flags.n }) ∧
    ((∀ m, decodeOpcode s.opcode ≠ .lda m) → u.a = a ∧ u.flags = f)

/-- R141: a step reads neither `STATUS` nor `REPORTS`; it can only set `STATUS` and append to `REPORTS` (that it may be
called while stopped is the spec's decision D29, log 21). -/
def Obligations.AStepReadsNeitherStatusNorReports : Prop :=
  ∀ s : State, ∃ (t : State) (new : List Report) (set : Option Status), step s = .next t ∧
    ∀ (st : Status) (rs : List Report),
      step { s with status := st, reports := rs } = .next { t with status := set.getD st, reports := rs ++ new }

/-- Each step performs exactly one debit, of the cost of its opcode, saturating at zero (R148, R196; the numbers 7 and 1
and the saturation are the spec's decisions D5, D6 and D7, log 8 to 10). -/
def Obligations.AStepDebitsTheCostOfItsOpcode : Prop :=
  ∀ s : State, ∃ t, step s = .next t ∧ t.cyc.toInt = max (s.cyc.toInt - (stepCost s.opcode : Int)) 0 ∧
    stepCost s.opcode =
      if s.opcode = 0x00 then 7 else if s.opcode = 0xA9 then 2 else if s.opcode = 0xA5 then 3
      else if s.opcode ∈ ([0xB5, 0xAD, 0xBD, 0xB9] : List Byte) then 4
      else if s.opcode = 0xA1 then 6 else if s.opcode = 0xB1 then 5 else 1

/-- Execution is strictly sequential: every step moves `PC` by the length of its instruction, modulo 65536 (R151). -/
def Obligations.AStepMovesPcByTheInstructionsLength : Prop :=
  ∀ s : State, ∃ t, step s = .next t ∧ t.pc.toNat = (s.pc.toNat + opcodeLength s.opcode) % 65536 ∧
    opcodeLength s.opcode =
      if s.opcode ∈ ([0xA9, 0xA5, 0xB5, 0xA1, 0xB1] : List Byte) then 2
      else if s.opcode ∈ ([0xAD, 0xBD, 0xB9] : List Byte) then 3 else 1

/-- What a step does to `STATUS` and `REPORTS` (R150, R161, R165; the five values and the records are the spec's decision
D20, log 17): `BRK` sets `HALTED`, nothing else sets `STATUS`; an invalid opcode appends its record, nothing else
appends one. -/
def Obligations.AStepSetsStatusAndReportsByItsOpcode : Prop :=
  ∀ s : State, ∃ t, step s = .next t ∧
    (t.status = if s.opcode = 0x00 then .halted else s.status) ∧
    t.reports.map Report.triple = s.reports.map Report.triple ++
      (if s.opcode ∈ ([0x00, 0xA1, 0xA5, 0xA9, 0xAD, 0xB1, 0xB5, 0xB9, 0xBD] : List Byte) then []
       else [(1, s.pc, s.opcode)])

/-! ### The run -/

/-- A run is the guarded loop of R144, and it ends: after at most `max(budget, 0)` steps, in the first state whose
guard fails (R145, R149). -/
def Obligations.ARunEndsWithinItsBudget : Prop :=
  ∀ (budget : Cycles) (s : State), ∃ (k : Nat) (u : State),
    GuardedSteps k (s.beginRun budget) u ∧ u.mayFetch = false ∧ (k : Int) ≤ max budget.toInt 0 ∧
    run budget s = .next (if u.status = .running then { u with status := .exhausted } else u)

/-- A run ends `HALTED`, or `EXHAUSTED` with the counter at zero, and never with a mode fault or while `RUNNING` (R145). -/
def Obligations.ARunEndsHaltedOrExhausted : Prop :=
  ∀ (budget : Cycles) (s : State), ∃ t, run budget s = .next t ∧ 0 ≤ t.cyc.toInt ∧
    (t.status = .halted ∨ (t.status = .exhausted ∧ t.cyc.toInt = 0)) ∧ ¬ t.goneWrong

/-- A budget of zero or less runs no step (R144, R145, R146; a negative budget counts as zero by D8, log 10). -/
def Obligations.AnEmptyBudgetRunsNothing : Prop :=
  ∀ (budget : Cycles) (s : State), budget.toInt ≤ 0 →
    run budget s = .next { s with cyc := 0, status := .exhausted }

/-- A run depends on the registers, the memory and the budget, not on the counter or status it finds (R145, R146, R36);
the counter starts at `max(budget, 0)` (D8, log 10). -/
def Obligations.ARunOverwritesCounterAndStatus : Prop :=
  ∀ (budget c : Cycles) (st : Status) (s : State),
    run budget { s with cyc := c, status := st } = run budget s ∧
    (s.beginRun budget).cyc.toInt = max budget.toInt 0 ∧ (s.beginRun budget).status = .running

/-- A run leaves memory, `X`, `Y`, `SP` and the flags `C`, `I`, `D`, `B`, `V` as it found them, keeps the records of
`REPORTS`, and every record it adds names a byte that stands at its address (R37, R42, R62, R161). -/
def Obligations.ARunKeepsMemoryAndAddsPreciseReports : Prop :=
  ∀ (budget : Cycles) (s : State), ∃ t new, run budget s = .next t ∧ t.mem = s.mem ∧ t.x = s.x ∧ t.y = s.y ∧
    t.sp = s.sp ∧ t.flags.c = s.flags.c ∧ t.flags.i = s.flags.i ∧ t.flags.d = s.flags.d ∧ t.flags.b = s.flags.b ∧
    t.flags.v = s.flags.v ∧ t.reports = s.reports ++ new ∧
    ∀ r ∈ new, r.kind = .invalidOpcode ∧ decodeOpcode r.op = .invalid r.op ∧ s.mem.read r.addr = r.op

/-- A run that meets `BRK` at once ends `HALTED` after that step, also when its cost exceeds the budget (R147, R150;
over-draining and the order of stop reasons are the spec's decisions D7 and D27, log 10). -/
def Obligations.AHaltWinsOverExhaustion : Prop :=
  ∀ (budget : Cycles) (s : State), 0 < budget.toInt → s.opcode = 0x00 →
    ∃ t, run budget s = .next t ∧ t.status = .halted ∧ t.pc.toNat = (s.pc.toNat + 1) % 65536 ∧
      t.cyc.toInt = max (budget.toInt - 7) 0 ∧ t = { s with pc := t.pc, cyc := t.cyc, status := t.status }

/-! ### Reset and the host -/

/-- The reset values of R40, and memory as created (R192, log 3 and 4). The values of `SP`, the flags, `CYC`, `STATUS`
and `REPORTS` are the spec's decisions D9, D10 and D20 (log 11). -/
def Obligations.ResetLeavesTheTablesValues : Prop :=
  State.reset.pc = 0x0200 ∧ State.reset.a = 0 ∧ State.reset.x = 0 ∧ State.reset.y = 0 ∧ State.reset.sp = 0 ∧
  State.reset.flags = { c := false, z := false, i := true, d := false, b := false, v := false, n := false } ∧
  State.reset.p = 0x24 ∧ State.reset.cyc.toInt = 0 ∧ State.reset.status.code = 0 ∧ State.reset.reports = [] ∧
  ∀ a : Addr, State.reset.mem.read a = 0

/-- Reset of the block is available at any time, sets every field but the memory, and does not touch the memory (R190,
R192; that it leaves memory alone is the spec's decision D25). -/
def Obligations.ResetOfTheBlockKeepsMemory : Prop :=
  ∀ s : State, ∃ t, hostMove .reset s = .next t ∧ t = { State.reset with mem := s.mem }

/-- While stopped the host may make every move, and each completes; while running it has none but reset (R41, R144;
the spec's decision D19; the refusal is the model's form of "no move", log 19). -/
def Obligations.TheHostMovesOnlyWhileStopped : Prop :=
  ∀ (h : HostMove) (s : State),
    (s.status ≠ .running → ∃ t, hostMove h s = .next t) ∧
    (s.status = .running → h ≠ .reset → hostMove h s = .refused .hostMoveDuringRun)

/-- Every move of the host keeps the memory canonical (the model's own form of memory, log 23). -/
def Obligations.EveryHostMoveKeepsMemoryCanonical : Prop :=
  ∀ (h : HostMove) (s t : State), s.mem.wf → hostMove h s = .next t → t.mem.wf
end

