-- ==== Sys2Proof/Laws/Bits.lean ====
section
/-! SUPPORT. The bit and arithmetic operations of `Machine/Bits.lean` in terms of `BitVec` and of numbers. -/

namespace Sys2Proof.Machine

@[simp] theorem add16_eq (a b : Addr) : add16 a b = a + b := by
  apply BitVec.eq_of_toNat_eq
  simp [add16, Config.addrModulus]

@[simp] theorem add8_eq (a b : Byte) : add8 a b = a + b := by
  apply BitVec.eq_of_toNat_eq
  simp [add8, Config.zeroPageModulus]

theorem add16_toNat (a b : Addr) : (add16 a b).toNat = (a.toNat + b.toNat) % 65536 := by
  simp [BitVec.toNat_add]

theorem add8_toNat (a b : Byte) : (add8 a b).toNat = (a.toNat + b.toNat) % 256 := by
  simp [BitVec.toNat_add]

@[simp] theorem zext16_toNat (b : Byte) : (zext16 b).toNat = b.toNat := by
  have := b.isLt
  simp [zext16]
  omega

/-- `sext_16(b)` is the two's-complement reading of `b` modulo 65536 (`00_scope.md` R11). -/
theorem sext16_toNat (b : Byte) : ((sext16 b).toNat : Int) = b.toInt % 65536 := by
  have := b.isLt
  unfold sext16
  rw [BitVec.toInt_eq_toNat_cond]
  split <;> split <;> rw [BitVec.toNat_ofNat] <;> omega

@[simp] theorem cat_toNat (hi lo : Byte) : (cat hi lo).toNat = hi.toNat * 256 + lo.toNat := by
  have := hi.isLt
  have := lo.isLt
  simp [cat]
  omega

@[simp] theorem lowByte_toNat (w : Addr) : (lowByte w).toNat = w.toNat % 256 := by
  simp [lowByte]

@[simp] theorem highByte_toNat (w : Addr) : (highByte w).toNat = w.toNat / 256 := by
  have := w.isLt
  simp [highByte]
  omega

theorem joinWord_eq_cat (first second : Byte) : joinWord first second = cat second first := rfl

theorem joinWord_toNat (first second : Byte) :
    (joinWord first second).toNat = first.toNat + 256 * second.toNat := by
  rw [joinWord_eq_cat, cat_toNat]
  omega

@[simp] theorem joinWord_first_second (w : Addr) : joinWord (wordFirst w) (wordSecond w) = w := by
  apply BitVec.eq_of_toNat_eq
  have h1 : wordFirst w = lowByte w := rfl
  have h2 : wordSecond w = highByte w := rfl
  rw [joinWord_toNat, h1, h2, lowByte_toNat, highByte_toNat]
  omega

@[simp] theorem wordFirst_joinWord (a b : Byte) : wordFirst (joinWord a b) = a := by
  apply BitVec.eq_of_toNat_eq
  have h : wordFirst (joinWord a b) = lowByte (joinWord a b) := rfl
  have := a.isLt
  rw [h, lowByte_toNat, joinWord_toNat]
  omega

@[simp] theorem wordSecond_joinWord (a b : Byte) : wordSecond (joinWord a b) = b := by
  apply BitVec.eq_of_toNat_eq
  have h : wordSecond (joinWord a b) = highByte (joinWord a b) := rfl
  have := a.isLt
  rw [h, highByte_toNat, joinWord_toNat]
  omega

/-- A number that an `i64` holds survives being put into one. -/
theorem toInt_ofInt_of_nonneg (z : Int) (h0 : 0 ≤ z) (h1 : z < 2 ^ 63) : (BitVec.ofInt 64 z).toInt = z := by
  rw [BitVec.toInt_ofInt]
  exact Int.bmod_eq_of_le (by omega) (by omega)

theorem cycles_lt (c : Cycles) : c.toInt < 2 ^ 63 := by
  have := BitVec.toInt_lt (x := c)
  simpa using this

/-- `satsub(c, k) = max(c - k, 0)` on the signed readings, with no wrap (`00_scope.md` R11, `43_dispatch_and_halt.md` R148). -/
@[simp] theorem satsub_toInt (c : Cycles) (k : Nat) : (satsub c k).toInt = max (c.toInt - (k : Int)) 0 := by
  have := cycles_lt c
  exact toInt_ofInt_of_nonneg _ (by omega) (by omega)

end Sys2Proof.Machine
end

