-- ==== Sys2Proof/Laws/Memory.lean ====
section
/-! SUPPORT. The laws of memory: what a read gives after a store, and that every memory operation keeps the canonical
form `Memory.wf`. -/

namespace Sys2Proof.Machine

theorem Memory.byteAt_erase (m : Memory) (n k : Nat) :
    Memory.byteAt (Memory.erase m n) k = if k = n then Config.blankByte else Memory.byteAt m k := by
  induction m with
  | nil => simp [Memory.erase, Memory.byteAt]
  | cons c m ih =>
    simp only [Memory.erase, Memory.byteAt]
    split
    · rename_i h
      rw [ih]
      split
      · rfl
      · rw [if_neg (by omega)]
    · simp only [Memory.byteAt, ih]
      split
      · rw [if_neg (by omega)]
      · rfl

theorem Memory.byteAt_insert (m : Memory) (n k : Nat) (v : Byte) (h : ∀ c ∈ m, c.1 ≠ n) :
    Memory.byteAt (Memory.insert m n v) k = if k = n then v else Memory.byteAt m k := by
  induction m with
  | nil =>
    simp only [Memory.insert, Memory.byteAt, eq_comm (a := n)]
  | cons c m ih =>
    have hc : c.1 ≠ n := h c (by simp)
    have ih := ih (fun d hd => h d (by simp [hd]))
    simp only [Memory.insert]
    split
    · simp only [Memory.byteAt, eq_comm (a := n)]
    · simp only [Memory.byteAt, ih]
      split
      · rw [if_neg (by omega)]
      · rfl

theorem Memory.mem_erase {m : Memory} {n : Nat} {c : Host.Cell} : c ∈ Memory.erase m n ↔ c ∈ m ∧ c.1 ≠ n := by
  induction m with
  | nil => simp [Memory.erase]
  | cons d m ih =>
    simp only [Memory.erase]
    split
    · rename_i h
      rw [ih, List.mem_cons]
      constructor
      · exact fun ⟨h1, h2⟩ => ⟨.inr h1, h2⟩
      · rintro ⟨rfl | h1, h2⟩
        · exact absurd h h2
        · exact ⟨h1, h2⟩
    · rename_i h
      rw [List.mem_cons, ih, List.mem_cons]
      constructor
      · rintro (rfl | ⟨h1, h2⟩)
        · exact ⟨.inl rfl, h⟩
        · exact ⟨.inr h1, h2⟩
      · rintro ⟨rfl | h1, h2⟩
        · exact .inl rfl
        · exact .inr ⟨h1, h2⟩

theorem Memory.mem_insert {m : Memory} {n : Nat} {v : Byte} {c : Host.Cell} :
    c ∈ Memory.insert m n v ↔ c = (n, v) ∨ c ∈ m := by
  induction m with
  | nil => simp [Memory.insert]
  | cons d m ih =>
    simp only [Memory.insert]
    split
    · simp
    · simp only [List.mem_cons, ih]
      tauto

/-- Read after store, at every address and for every list. -/
theorem Memory.byteAt_store (m : Memory) (n k : Nat) (v : Byte) :
    Memory.byteAt (Memory.store m n v) k = if k = n then v else Memory.byteAt m k := by
  unfold Memory.store
  split
  · rename_i h
    rw [Memory.byteAt_erase, h]
  · rw [Memory.byteAt_insert _ _ _ _ (fun c hc => (Memory.mem_erase.1 hc).2), Memory.byteAt_erase]
    split <;> rfl

/-- Read after write, in terms of addresses (`20_memory.md` R51, R52). -/
theorem Memory.read_write (m : Memory) (a b : Addr) (v : Byte) :
    Memory.read (Memory.write m a v) b = if b = a then v else Memory.read m b := by
  simp only [Memory.read, Memory.write, Memory.byteAt_store, ← BitVec.toNat_inj]

theorem Memory.byteAt_write (m : Memory) (a : Addr) (n : Nat) (v : Byte) :
    Memory.byteAt (Memory.write m a v) n = if n = a.toNat then v else Memory.byteAt m n :=
  Memory.byteAt_store m a.toNat n v

/-- A word read as a number: the low byte at the address, the high byte at its successor (R53, R56). -/
theorem Memory.readWord_toNat (m : Memory) (a : Addr) : (Memory.readWord m a).toNat = wordAt m a.toNat := by
  simp [Memory.readWord, joinWord_toNat, wordAt, Memory.read, BitVec.toNat_add]

/-! ### Canonical form -/

theorem Memory.pairwise_erase {m : Memory} {n : Nat} (h : m.Pairwise (fun c d => c.1 < d.1)) :
    (Memory.erase m n).Pairwise (fun c d => c.1 < d.1) := by
  induction m with
  | nil => exact List.Pairwise.nil
  | cons c m ih =>
    obtain ⟨h1, h2⟩ := List.pairwise_cons.1 h
    simp only [Memory.erase]
    split
    · exact ih h2
    · exact List.pairwise_cons.2 ⟨fun d hd => h1 d (Memory.mem_erase.1 hd).1, ih h2⟩

theorem Memory.pairwise_insert {m : Memory} {n : Nat} {v : Byte} (h : m.Pairwise (fun c d => c.1 < d.1))
    (hn : ∀ c ∈ m, c.1 ≠ n) : (Memory.insert m n v).Pairwise (fun c d => c.1 < d.1) := by
  induction m with
  | nil => exact List.pairwise_singleton _ _
  | cons c m ih =>
    obtain ⟨h1, h2⟩ := List.pairwise_cons.1 h
    have hc : c.1 ≠ n := hn c (by simp)
    simp only [Memory.insert]
    split
    · rename_i hlt
      refine List.pairwise_cons.2 ⟨fun d hd => ?_, h⟩
      rcases List.mem_cons.1 hd with rfl | hd
      · exact hlt
      · exact Nat.lt_trans hlt (h1 d hd)
    · rename_i hlt
      refine List.pairwise_cons.2 ⟨fun d hd => ?_, ih h2 (fun d hd => hn d (by simp [hd]))⟩
      rcases Memory.mem_insert.1 hd with rfl | hd
      · show c.1 < n
        omega
      · exact h1 d hd

theorem Memory.wf_store {m : Memory} {n : Nat} {v : Byte} (h : Memory.wf m) (hn : n < Config.memSize) :
    Memory.wf (Memory.store m n v) := by
  unfold Memory.store
  split
  · exact ⟨Memory.pairwise_erase h.1, fun c hc => h.2 c (Memory.mem_erase.1 hc).1⟩
  · rename_i hv
    refine ⟨Memory.pairwise_insert (Memory.pairwise_erase h.1) (fun c hc => (Memory.mem_erase.1 hc).2), fun c hc => ?_⟩
    rcases Memory.mem_insert.1 hc with rfl | hc
    · exact ⟨hn, hv⟩
    · exact h.2 c (Memory.mem_erase.1 hc).1

theorem Memory.wf_write {m : Memory} {a : Addr} {v : Byte} (h : Memory.wf m) : Memory.wf (Memory.write m a v) :=
  Memory.wf_store h a.isLt

theorem Memory.wf_writeWord {m : Memory} {a w : Addr} (h : Memory.wf m) : Memory.wf (Memory.writeWord m a w) :=
  Memory.wf_write (Memory.wf_write h)

theorem Memory.wf_load {m : Memory} {a : Addr} {bs : List Byte} (h : Memory.wf m) : Memory.wf (Memory.load m a bs) := by
  induction bs generalizing m a with
  | nil => exact h
  | cons b bs ih => exact ih (Memory.wf_write h)

theorem Memory.wf_reset : Memory.wf State.reset.mem := by decide

end Sys2Proof.Machine
end

