-- ==== Sys2Proof/Laws/State.lean ====
section
/-! SUPPORT. One lemma per field per state update, true by `rfl`, so that no later proof unfolds a record update. -/

namespace Sys2Proof.Machine

variable (s : State)

/-! ### `advance` -/

theorem advance_pc (k : Nat) : (s.advance k).pc = add16 s.pc (BitVec.ofNat 16 k) := rfl
@[simp] theorem advance_sp (k : Nat) : (s.advance k).sp = s.sp := rfl
@[simp] theorem advance_a (k : Nat) : (s.advance k).a = s.a := rfl
@[simp] theorem advance_x (k : Nat) : (s.advance k).x = s.x := rfl
@[simp] theorem advance_y (k : Nat) : (s.advance k).y = s.y := rfl
@[simp] theorem advance_flags (k : Nat) : (s.advance k).flags = s.flags := rfl
@[simp] theorem advance_cyc (k : Nat) : (s.advance k).cyc = s.cyc := rfl
@[simp] theorem advance_status (k : Nat) : (s.advance k).status = s.status := rfl
@[simp] theorem advance_reports (k : Nat) : (s.advance k).reports = s.reports := rfl
@[simp] theorem advance_mem (k : Nat) : (s.advance k).mem = s.mem := rfl

/-! ### `opcodeFetched` -/

theorem opcodeFetched_pc : s.opcodeFetched.pc = add16 s.pc 1 := rfl
@[simp] theorem opcodeFetched_sp : s.opcodeFetched.sp = s.sp := rfl
@[simp] theorem opcodeFetched_a : s.opcodeFetched.a = s.a := rfl
@[simp] theorem opcodeFetched_x : s.opcodeFetched.x = s.x := rfl
@[simp] theorem opcodeFetched_y : s.opcodeFetched.y = s.y := rfl
@[simp] theorem opcodeFetched_flags : s.opcodeFetched.flags = s.flags := rfl
@[simp] theorem opcodeFetched_cyc : s.opcodeFetched.cyc = s.cyc := rfl
@[simp] theorem opcodeFetched_status : s.opcodeFetched.status = s.status := rfl
@[simp] theorem opcodeFetched_reports : s.opcodeFetched.reports = s.reports := rfl
@[simp] theorem opcodeFetched_mem : s.opcodeFetched.mem = s.mem := rfl

/-! ### `setA` -/

@[simp] theorem setA_pc (v : Byte) : (s.setA v).pc = s.pc := rfl
@[simp] theorem setA_sp (v : Byte) : (s.setA v).sp = s.sp := rfl
@[simp] theorem setA_a (v : Byte) : (s.setA v).a = v := rfl
@[simp] theorem setA_x (v : Byte) : (s.setA v).x = s.x := rfl
@[simp] theorem setA_y (v : Byte) : (s.setA v).y = s.y := rfl
@[simp] theorem setA_flags (v : Byte) : (s.setA v).flags = s.flags := rfl
@[simp] theorem setA_cyc (v : Byte) : (s.setA v).cyc = s.cyc := rfl
@[simp] theorem setA_status (v : Byte) : (s.setA v).status = s.status := rfl
@[simp] theorem setA_reports (v : Byte) : (s.setA v).reports = s.reports := rfl
@[simp] theorem setA_mem (v : Byte) : (s.setA v).mem = s.mem := rfl

/-! ### `debit` -/

@[simp] theorem debit_pc (k : Nat) : (s.debit k).pc = s.pc := rfl
@[simp] theorem debit_sp (k : Nat) : (s.debit k).sp = s.sp := rfl
@[simp] theorem debit_a (k : Nat) : (s.debit k).a = s.a := rfl
@[simp] theorem debit_x (k : Nat) : (s.debit k).x = s.x := rfl
@[simp] theorem debit_y (k : Nat) : (s.debit k).y = s.y := rfl
@[simp] theorem debit_flags (k : Nat) : (s.debit k).flags = s.flags := rfl
@[simp] theorem debit_cyc (k : Nat) : (s.debit k).cyc = satsub s.cyc k := rfl
@[simp] theorem debit_status (k : Nat) : (s.debit k).status = s.status := rfl
@[simp] theorem debit_reports (k : Nat) : (s.debit k).reports = s.reports := rfl
@[simp] theorem debit_mem (k : Nat) : (s.debit k).mem = s.mem := rfl

/-! ### `setStatus` -/

@[simp] theorem setStatus_pc (st : Status) : (s.setStatus st).pc = s.pc := rfl
@[simp] theorem setStatus_sp (st : Status) : (s.setStatus st).sp = s.sp := rfl
@[simp] theorem setStatus_a (st : Status) : (s.setStatus st).a = s.a := rfl
@[simp] theorem setStatus_x (st : Status) : (s.setStatus st).x = s.x := rfl
@[simp] theorem setStatus_y (st : Status) : (s.setStatus st).y = s.y := rfl
@[simp] theorem setStatus_flags (st : Status) : (s.setStatus st).flags = s.flags := rfl
@[simp] theorem setStatus_cyc (st : Status) : (s.setStatus st).cyc = s.cyc := rfl
@[simp] theorem setStatus_status (st : Status) : (s.setStatus st).status = st := rfl
@[simp] theorem setStatus_reports (st : Status) : (s.setStatus st).reports = s.reports := rfl
@[simp] theorem setStatus_mem (st : Status) : (s.setStatus st).mem = s.mem := rfl

/-! ### `updateZN` -/

@[simp] theorem updateZN_pc (v : Byte) : (s.updateZN v).pc = s.pc := rfl
@[simp] theorem updateZN_sp (v : Byte) : (s.updateZN v).sp = s.sp := rfl
@[simp] theorem updateZN_a (v : Byte) : (s.updateZN v).a = s.a := rfl
@[simp] theorem updateZN_x (v : Byte) : (s.updateZN v).x = s.x := rfl
@[simp] theorem updateZN_y (v : Byte) : (s.updateZN v).y = s.y := rfl
@[simp] theorem updateZN_flags_z (v : Byte) : (s.updateZN v).flags.z = (v == 0) := rfl
@[simp] theorem updateZN_flags_n (v : Byte) : (s.updateZN v).flags.n = v.getLsbD 7 := rfl
@[simp] theorem updateZN_flags_c (v : Byte) : (s.updateZN v).flags.c = s.flags.c := rfl
@[simp] theorem updateZN_flags_i (v : Byte) : (s.updateZN v).flags.i = s.flags.i := rfl
@[simp] theorem updateZN_flags_d (v : Byte) : (s.updateZN v).flags.d = s.flags.d := rfl
@[simp] theorem updateZN_flags_b (v : Byte) : (s.updateZN v).flags.b = s.flags.b := rfl
@[simp] theorem updateZN_flags_v (v : Byte) : (s.updateZN v).flags.v = s.flags.v := rfl
@[simp] theorem updateZN_cyc (v : Byte) : (s.updateZN v).cyc = s.cyc := rfl
@[simp] theorem updateZN_status (v : Byte) : (s.updateZN v).status = s.status := rfl
@[simp] theorem updateZN_reports (v : Byte) : (s.updateZN v).reports = s.reports := rfl
@[simp] theorem updateZN_mem (v : Byte) : (s.updateZN v).mem = s.mem := rfl

/-! ### `report` -/

@[simp] theorem report_pc (k : ErrorKind) (a : Addr) (op : Byte) : (s.report k a op).pc = s.pc := rfl
@[simp] theorem report_sp (k : ErrorKind) (a : Addr) (op : Byte) : (s.report k a op).sp = s.sp := rfl
@[simp] theorem report_a (k : ErrorKind) (a : Addr) (op : Byte) : (s.report k a op).a = s.a := rfl
@[simp] theorem report_x (k : ErrorKind) (a : Addr) (op : Byte) : (s.report k a op).x = s.x := rfl
@[simp] theorem report_y (k : ErrorKind) (a : Addr) (op : Byte) : (s.report k a op).y = s.y := rfl
@[simp] theorem report_flags (k : ErrorKind) (a : Addr) (op : Byte) : (s.report k a op).flags = s.flags := rfl
@[simp] theorem report_cyc (k : ErrorKind) (a : Addr) (op : Byte) : (s.report k a op).cyc = s.cyc := rfl
@[simp] theorem report_status (k : ErrorKind) (a : Addr) (op : Byte) : (s.report k a op).status = s.status := rfl
@[simp] theorem report_reports (k : ErrorKind) (a : Addr) (op : Byte) :
    (s.report k a op).reports = s.reports ++ [{ kind := k, addr := a, op := op }] := rfl
@[simp] theorem report_mem (k : ErrorKind) (a : Addr) (op : Byte) : (s.report k a op).mem = s.mem := rfl

/-! ### `setP` and `updateCV` -/

@[simp] theorem setP_flags (p : Byte) : (s.setP p).flags = unpack p := rfl
@[simp] theorem setP_mem (p : Byte) : (s.setP p).mem = s.mem := rfl
@[simp] theorem updateCV_result (a m : Byte) (cin : Bool) : (s.updateCV a m cin).1 = resultCV a m cin := rfl

/-! ### `resolve` -/

@[simp] theorem resolve_address (m : Mode) : (resolve m s).1 = effectiveAddress m s := rfl
@[simp] theorem resolve_state (m : Mode) : (resolve m s).2 = s.advance m.width := rfl

/-! ### `beginRun` -/

@[simp] theorem beginRun_pc (b : Cycles) : (s.beginRun b).pc = s.pc := rfl
@[simp] theorem beginRun_sp (b : Cycles) : (s.beginRun b).sp = s.sp := rfl
@[simp] theorem beginRun_a (b : Cycles) : (s.beginRun b).a = s.a := rfl
@[simp] theorem beginRun_x (b : Cycles) : (s.beginRun b).x = s.x := rfl
@[simp] theorem beginRun_y (b : Cycles) : (s.beginRun b).y = s.y := rfl
@[simp] theorem beginRun_flags (b : Cycles) : (s.beginRun b).flags = s.flags := rfl
@[simp] theorem beginRun_status (b : Cycles) : (s.beginRun b).status = .running := rfl
@[simp] theorem beginRun_reports (b : Cycles) : (s.beginRun b).reports = s.reports := rfl
@[simp] theorem beginRun_mem (b : Cycles) : (s.beginRun b).mem = s.mem := rfl

/-! ### `resetBlock` -/

@[simp] theorem resetBlock_mem : s.resetBlock.mem = s.mem := rfl
@[simp] theorem resetBlock_status : s.resetBlock.status = .reset := rfl

/-- Two states with equal fields are equal. -/
theorem State.eq_of_fields {s t : State} (hpc : s.pc = t.pc) (hsp : s.sp = t.sp) (ha : s.a = t.a) (hx : s.x = t.x)
    (hy : s.y = t.y) (hf : s.flags = t.flags) (hc : s.cyc = t.cyc) (hst : s.status = t.status)
    (hr : s.reports = t.reports) (hm : s.mem = t.mem) : s = t := by
  cases s
  cases t
  simp_all

end Sys2Proof.Machine
end

