-- ==== Sys2Proof/Laws/Ops.lean ====
section
/-! SUPPORT. One lemma per shared operation, saying once everything it does: the shared end of a load, the halt, the
reported conditions, the resolver's cost and width tables. -/

namespace Sys2Proof.Machine

/-- With no page-crossing penalty the cost is the mode's (`42_load_accumulator.md` R121). -/
@[simp] theorem loadCost_eq (m : Mode) (crossed : Bool) : loadCost m crossed = ldaCost m := by
  cases crossed <;> rfl

/-- The negative flag as a comparison (`41_flag_updater.md` R110: "1 when v >= 0x80"). -/
theorem getLsbD_seven_iff (v : Byte) : v.getLsbD 7 = true ↔ 128 ≤ v.toNat := by
  have h : ∀ v : Byte, v.getLsbD 7 = true ↔ 128 ≤ v.toNat := by decide
  exact h v

theorem advance_pc_toNat (s : State) (k : Nat) : (s.advance k).pc.toNat = (s.pc.toNat + k) % 65536 := by
  rw [advance_pc, add16_toNat, BitVec.toNat_ofNat]
  omega

/-- Everything the shared part of a load does: `Loaded` (R122 to R131). -/
theorem loadAccumulator_loaded (m : Mode) (v : Byte) (crossed : Bool) (s : State) :
    Loaded s (loadAccumulator m v crossed s) v m.width (ldaCost m) where
  accumulator := rfl
  counter := advance_pc_toNat s m.width
  cycles := by simp [loadAccumulator, finishLoad]
  zero := by simp [loadAccumulator, finishLoad, ← BitVec.toNat_inj]
  negative := getLsbD_seven_iff v
  carry := rfl
  interrupt := rfl
  decimal := rfl
  brk := rfl
  overflow := rfl
  stack := rfl
  indexX := rfl
  indexY := rfl
  status := rfl
  reports := rfl
  memory := rfl

/-- The halt as one record update (`43_dispatch_and_halt.md` R142). -/
theorem halt_eq (s : State) : halt s = { s with cyc := satsub s.cyc 7, status := .halted } := by
  apply State.eq_of_fields <;> try rfl
  show add16 s.pc (BitVec.ofNat 16 0) = s.pc
  simp

/-- An invalid opcode as one record update (R143). -/
theorem invalidOpcode_eq (s : State) (a : Addr) (op : Byte) :
    s.invalidOpcode a op =
      { s with cyc := satsub s.cyc 1, reports := s.reports ++ [{ kind := .invalidOpcode, addr := a, op := op }] } := rfl

/-- A mode fault as one record update (`60_exceptions.md` R162). -/
theorem raiseModeFault_eq (s : State) (a : Addr) (op : Byte) :
    s.raiseModeFault a op =
      { s with status := .modeFault, reports := s.reports ++ [{ kind := .modeFault, addr := a, op := op }] } := rfl

/-! ### The numbers of the tables -/

@[simp] theorem width_implicit : Mode.width .implicit = 0 := rfl
@[simp] theorem width_accumulator : Mode.width .accumulator = 0 := rfl
@[simp] theorem width_immediate : Mode.width .immediate = 1 := rfl
@[simp] theorem width_zeropage : Mode.width .zeropage = 1 := rfl
@[simp] theorem width_zeropageX : Mode.width .zeropageX = 1 := rfl
@[simp] theorem width_zeropageY : Mode.width .zeropageY = 1 := rfl
@[simp] theorem width_relative : Mode.width .relative = 1 := rfl
@[simp] theorem width_absolute : Mode.width .absolute = 2 := rfl
@[simp] theorem width_absoluteX : Mode.width .absoluteX = 2 := rfl
@[simp] theorem width_absoluteY : Mode.width .absoluteY = 2 := rfl
@[simp] theorem width_indirect : Mode.width .indirect = 2 := rfl
@[simp] theorem width_indexedIndirect : Mode.width .indexedIndirect = 1 := rfl
@[simp] theorem width_indirectIndexed : Mode.width .indirectIndexed = 1 := rfl

/-! ### The addresses of the operand forms as numbers -/

@[simp] theorem zeropageAddr_toNat (d : Byte) : (zeropageAddr d).toNat = d.toNat := zext16_toNat d

theorem zeropageXAddr_toNat (d : Byte) (s : State) : (zeropageXAddr d s).toNat = (d.toNat + s.x.toNat) % 256 := by
  rw [zeropageXAddr, zext16_toNat, add8_toNat]

theorem zeropageYAddr_toNat (d : Byte) (s : State) : (zeropageYAddr d s).toNat = (d.toNat + s.y.toNat) % 256 := by
  rw [zeropageYAddr, zext16_toNat, add8_toNat]

theorem absoluteXAddr_toNat (w : Addr) (s : State) : (absoluteXAddr w s).toNat = (w.toNat + s.x.toNat) % 65536 := by
  rw [absoluteXAddr, add16_toNat, zext16_toNat]

theorem absoluteYAddr_toNat (w : Addr) (s : State) : (absoluteYAddr w s).toNat = (w.toNat + s.y.toNat) % 65536 := by
  rw [absoluteYAddr, add16_toNat, zext16_toNat]

theorem relativeAddr_toNat (d : Byte) (pcAfter : Addr) :
    ((relativeAddr d pcAfter).toNat : Int) = ((pcAfter.toNat : Int) + d.toInt) % 65536 := by
  have h := sext16_toNat d
  rw [relativeAddr, add16_toNat]
  push_cast
  omega

theorem indirectAddr_toNat (ptr : Addr) (s : State) : (indirectAddr ptr s).toNat = wordAt s.mem ptr.toNat :=
  Memory.readWord_toNat s.mem ptr

theorem indexedIndirectAddr_toNat (d : Byte) (s : State) :
    (indexedIndirectAddr d s).toNat = wordAt s.mem ((d.toNat + s.x.toNat) % 256) := by
  rw [indexedIndirectAddr, Memory.readWord_toNat, zext16_toNat, add8_toNat]

theorem indirectBase_toNat (d : Byte) (s : State) : (indirectBase d s).toNat = wordAt s.mem d.toNat := by
  rw [indirectBase, Memory.readWord_toNat, zext16_toNat]

theorem indirectIndexedAddr_toNat (d : Byte) (s : State) :
    (indirectIndexedAddr d s).toNat = (wordAt s.mem d.toNat + s.y.toNat) % 65536 := by
  rw [indirectIndexedAddr, add16_toNat, indirectBase_toNat, zext16_toNat]

theorem operandByte_eq (s : State) : operandByte s = Memory.byteAt s.mem s.pc.toNat := rfl

theorem operandWord_toNat (s : State) : (operandWord s).toNat = wordAt s.mem s.pc.toNat :=
  Memory.readWord_toNat s.mem s.pc

theorem opcodeFetched_pc_toNat (s : State) : s.opcodeFetched.pc.toNat = (s.pc.toNat + 1) % 65536 :=
  advance_pc_toNat s 1

/-! ### The handler and the table -/

/-- The first thing a supported mode has is an address (R91 to R103). -/
theorem effectiveAddress_isSome (m : Mode) (s : State) (h : supportedLda m = true) :
    ∃ ea, effectiveAddress m s = some ea := by
  cases m <;> simp_all [supportedLda, effectiveAddress]

/-- The handler with a supported mode (R120). -/
theorem ldaHandler_supported (a : Addr) (op : Byte) (m : Mode) (s : State) (ea : Addr) (h : supportedLda m = true)
    (hea : effectiveAddress m s = some ea) :
    ldaHandler a op m s = loadAccumulator m (s.mem.read ea) false s := by
  simp [ldaHandler, h, resolve, hea, loadAccumulator]

/-- The opcode table paired with the load handler holds supported modes only (R130). -/
theorem decodeOpcode_lda_supported : ∀ (op : Byte) (m : Mode), decodeOpcode op = .lda m → supportedLda m = true := by
  intro op m
  have h : ∀ op : Byte, (match decodeOpcode op with | .lda m => supportedLda m | _ => true) = true := by decide
  intro hm
  have := h op
  rwa [hm] at this

/-- `Decode` names the byte it found invalid (R75). -/
theorem decodeOpcode_invalid : ∀ op o : Byte, decodeOpcode op = .invalid o → o = op := by
  intro op o
  have h : ∀ op : Byte, (match decodeOpcode op with | .invalid o => o == op | _ => true) = true := by decide
  intro ho
  have := h op
  rw [ho] at this
  exact eq_of_beq this

end Sys2Proof.Machine
end

