-- ==== Sys2Proof/Laws/PerInstr.lean ====
section
/-! SUPPORT. Statements made for every instruction, one lemma per constructor of `Instr` (`LAWS.json`). -/

namespace Sys2Proof.Laws

open Sys2Proof

/-- Its handler accepts its mode (`42_load_accumulator.md` R130), so every instruction is well formed. -/
def WellFormed.Statement (i : Instr) : Prop := i.wellFormed = true

theorem WellFormed.brk : WellFormed.Statement .brk := rfl
theorem WellFormed.ldaIndexedIndirect (d : Byte) : WellFormed.Statement (.ldaIndexedIndirect d) := rfl
theorem WellFormed.ldaZeropage (d : Byte) : WellFormed.Statement (.ldaZeropage d) := rfl
theorem WellFormed.ldaImmediate (d : Byte) : WellFormed.Statement (.ldaImmediate d) := rfl
theorem WellFormed.ldaAbsolute (w : Addr) : WellFormed.Statement (.ldaAbsolute w) := rfl
theorem WellFormed.ldaIndirectIndexed (d : Byte) : WellFormed.Statement (.ldaIndirectIndexed d) := rfl
theorem WellFormed.ldaZeropageX (d : Byte) : WellFormed.Statement (.ldaZeropageX d) := rfl
theorem WellFormed.ldaAbsoluteY (w : Addr) : WellFormed.Statement (.ldaAbsoluteY w) := rfl
theorem WellFormed.ldaAbsoluteX (w : Addr) : WellFormed.Statement (.ldaAbsoluteX w) := rfl

/-- What `Decode` makes of an instruction's opcode byte: its handler with its mode (`30_encoding.md` R75). -/
def FirstByte.Statement (i : Instr) : Prop :=
  (encode i).head?.map decodeOpcode =
    some (match i.handler with
      | .halt => .brk
      | .load => .lda i.mode)

theorem FirstByte.brk : FirstByte.Statement .brk := rfl
theorem FirstByte.ldaIndexedIndirect (d : Byte) : FirstByte.Statement (.ldaIndexedIndirect d) := rfl
theorem FirstByte.ldaZeropage (d : Byte) : FirstByte.Statement (.ldaZeropage d) := rfl
theorem FirstByte.ldaImmediate (d : Byte) : FirstByte.Statement (.ldaImmediate d) := rfl
theorem FirstByte.ldaAbsolute (w : Addr) : FirstByte.Statement (.ldaAbsolute w) := rfl
theorem FirstByte.ldaIndirectIndexed (d : Byte) : FirstByte.Statement (.ldaIndirectIndexed d) := rfl
theorem FirstByte.ldaZeropageX (d : Byte) : FirstByte.Statement (.ldaZeropageX d) := rfl
theorem FirstByte.ldaAbsoluteY (w : Addr) : FirstByte.Statement (.ldaAbsoluteY w) := rfl
theorem FirstByte.ldaAbsoluteX (w : Addr) : FirstByte.Statement (.ldaAbsoluteX w) := rfl

end Sys2Proof.Laws
end

