-- ==== Sys2Proof/Laws/Step.lean ====
section
/-! SUPPORT. What `exec` and `step` can do, said once: later proofs cite these inversion lemmas instead of unfolding
the decoder and the dispatch. -/

namespace Sys2Proof.Machine

/-- The byte an instruction loads, on the state after the opcode fetch; `none` for the halt. -/
def loadedByte (i : Instr) (s : State) : Option Byte :=
  match i with
  | .brk => none
  | .ldaImmediate d => some d
  | .ldaZeropage d => some (s.mem.read (zeropageAddr d))
  | .ldaZeropageX d => some (s.mem.read (zeropageXAddr d s))
  | .ldaAbsolute w => some (s.mem.read w)
  | .ldaAbsoluteX w => some (s.mem.read (absoluteXAddr w s))
  | .ldaAbsoluteY w => some (s.mem.read (absoluteYAddr w s))
  | .ldaIndexedIndirect d => some (s.mem.read (indexedIndirectAddr d s))
  | .ldaIndirectIndexed d => some (s.mem.read (indirectIndexedAddr d s))

/-- Whatever the page-crossing bit, a load is the one with the bit clear (R121). -/
theorem loadAccumulator_crossed (m : Mode) (v : Byte) (crossed : Bool) (s : State) :
    loadAccumulator m v crossed s = loadAccumulator m v false s := by
  simp [loadAccumulator]

/-- Every instruction completes: the halt as `halt`, a load as `loadAccumulator` of the byte it names. -/
theorem exec_eq (i : Instr) (s : State) :
    exec i s =
      .next (match loadedByte i s with
        | none => halt s
        | some v => loadAccumulator i.mode v false s) := by
  cases i <;> simp only [exec, loadedByte, Instr.mode] <;> try rfl
  · exact congrArg _ (loadAccumulator_crossed _ _ _ _)
  · exact congrArg _ (loadAccumulator_crossed _ _ _ _)
  · exact congrArg _ (loadAccumulator_crossed _ _ _ _)

/-- The bytes a step fetches, the opcode byte first. -/
theorem fetchBytes_eq (s : State) :
    s.fetchBytes = [s.opcode, s.mem.read (add16 s.pc 1), s.mem.read (add16 s.pc 2)] := rfl

/-- A step on the halt opcode (R140, R142). -/
theorem step_of_brk (s : State) (h : decodeOpcode s.opcode = .brk) : step s = .next (halt s.opcodeFetched) := by
  simp only [step, fetchBytes_eq, decode, h]
  rfl

/-- A step on an invalid opcode (R140, R143). -/
theorem step_of_invalid (s : State) (o : Byte) (h : decodeOpcode s.opcode = .invalid o) :
    step s = .next (s.opcodeFetched.invalidOpcode s.pc s.opcode) := by
  obtain rfl := decodeOpcode_invalid _ _ h
  simp only [step, fetchBytes_eq, decode, h]

/-- A step on a load opcode: the byte at the address the resolver computes is loaded (R140, R120). -/
theorem step_of_lda (s : State) (m : Mode) (h : decodeOpcode s.opcode = .lda m) :
    ∃ ea, effectiveAddress m s.opcodeFetched = some ea ∧
      step s = .next (loadAccumulator m (s.mem.read ea) false s.opcodeFetched) := by
  have hm := decodeOpcode_lda_supported _ _ h
  obtain ⟨ea, hea⟩ := effectiveAddress_isSome m s.opcodeFetched hm
  have h2 : add16 s.pc 2 = add16 (add16 s.pc 1) 1 := by simp [BitVec.add_assoc]
  refine ⟨ea, hea, ?_⟩
  cases m <;> simp only [supportedLda, reduceCtorEq] at hm <;>
    simp only [step, fetchBytes_eq, decode, h, decodeLda, withByte, withWord, exec_eq, loadedByte, Instr.mode] <;>
    simp only [effectiveAddress, Option.some.injEq] at hea <;> subst hea <;> (try rw [h2]) <;> rfl

/-- What a step can do, said once: it halts, loads a byte, or reports an invalid opcode. -/
theorem step_cases (s : State) :
    (decodeOpcode s.opcode = .brk ∧ step s = .next (halt s.opcodeFetched)) ∨
    (∃ m ea, decodeOpcode s.opcode = .lda m ∧ effectiveAddress m s.opcodeFetched = some ea ∧
      step s = .next (loadAccumulator m (s.mem.read ea) false s.opcodeFetched)) ∨
    (decodeOpcode s.opcode = .invalid s.opcode ∧ step s = .next (s.opcodeFetched.invalidOpcode s.pc s.opcode)) := by
  cases h : decodeOpcode s.opcode with
  | brk => exact .inl ⟨rfl, step_of_brk s h⟩
  | lda m =>
    obtain ⟨ea, hea, hs⟩ := step_of_lda s m h
    exact .inr (.inl ⟨m, ea, rfl, hea, hs⟩)
  | invalid o =>
    obtain rfl := decodeOpcode_invalid _ _ h
    exact .inr (.inr ⟨rfl, step_of_invalid s _ h⟩)

/-- What a load leaves, seen from the state before the opcode fetch. -/
theorem Loaded.fromFetch {s t : State} {v : Byte} {width cost : Nat} (h : Loaded s.opcodeFetched t v width cost) :
    Loaded s t v (1 + width) cost where
  accumulator := h.accumulator
  counter := by
    rw [h.counter, opcodeFetched_pc_toNat]
    omega
  cycles := h.cycles
  zero := h.zero
  negative := h.negative
  carry := h.carry
  interrupt := h.interrupt
  decimal := h.decimal
  brk := h.brk
  overflow := h.overflow
  stack := h.stack
  indexX := h.indexX
  indexY := h.indexY
  status := h.status
  reports := h.reports
  memory := h.memory

end Sys2Proof.Machine
end

