-- ==== Sys2Proof/Tests/Slice0.lean ====
section
/-! SUPPORT. The model's own tests, expected results from `95_test_vectors.md` (its vector ids are named), and for each
obligation with hypotheses a witness that meets them together. -/

namespace Sys2Proof.Tests

open Sys2Proof Sys2Proof.Machine

/-- The reset state with bytes stored from `pc` on, further cells written, and `PC` and `CYC` set. -/
def stateAt (pc : Addr) (cyc : Cycles) (bytes : List Byte) (data : List (Addr × Byte)) : State :=
  { State.reset with
    pc := pc
    cyc := cyc
    mem := data.foldl (fun m c => m.write c.1 c.2) (Memory.load [] pc bytes) }

/-- `A`, `Z`, `N`, `PC` and `CYC` after a step: the columns of the L vectors. -/
def loadColumns (s : State) : Option (Byte × Bool × Bool × Addr × Int) :=
  match step s with
  | .next t => some (t.a, t.flags.z, t.flags.n, t.pc, t.cyc.toInt)
  | _ => none

/-- The columns of the T vectors: `PC`, `CYC`, `STATUS` and the records of `REPORTS`. -/
structure RunRow where
  pc : Addr
  cyc : Int
  status : Status
  reports : List (BitVec 2 × Addr × Byte)
deriving DecidableEq, Repr

/-- The columns of the T vectors after an outcome. -/
def runColumns (o : Host.Outcome State Fault Refusal) : Option RunRow :=
  match o with
  | .next t => some ⟨t.pc, t.cyc.toInt, t.status, t.reports.map Report.triple⟩
  | _ => none

/-! ### Well-formedness: the check refuses ill-formed pairings (R121, R130) -/

theorem test_illformed_load_implicit : Handler.load.accepts .implicit = false := by decide
theorem test_illformed_load_accumulator : Handler.load.accepts .accumulator = false := by decide
theorem test_illformed_load_zeropageY : Handler.load.accepts .zeropageY = false := by decide
theorem test_illformed_load_relative : Handler.load.accepts .relative = false := by decide
theorem test_illformed_load_indirect : Handler.load.accepts .indirect = false := by decide
theorem test_illformed_halt_immediate : Handler.halt.accepts .immediate = false := by decide

/-! ### Decode: the table's words (T0, T0b), the assembler spelling (R79), the table word interface -/

theorem test_decode_brk : decode [0b00000000] = .ok .brk [] := by decide
theorem test_decode_ldaIndexedIndirect : decode [0b10100001, 0x20] = .ok (.ldaIndexedIndirect 0x20) [] := by decide
theorem test_decode_ldaZeropage : decode [0b10100101, 0x10] = .ok (.ldaZeropage 0x10) [] := by decide
theorem test_decode_ldaImmediate : decode [0b10101001, 0x45] = .ok (.ldaImmediate 0x45) [] := by decide
theorem test_decode_ldaAbsolute : decode [0b10101101, 0x34, 0x12] = .ok (.ldaAbsolute 0x1234) [] := by decide
theorem test_decode_ldaIndirectIndexed : decode [0b10110001, 0x24] = .ok (.ldaIndirectIndexed 0x24) [] := by decide
theorem test_decode_ldaZeropageX : decode [0b10110101, 0xFF] = .ok (.ldaZeropageX 0xFF) [] := by decide
theorem test_decode_ldaAbsoluteY : decode [0b10111001, 0x00, 0x40] = .ok (.ldaAbsoluteY 0x4000) [] := by decide
theorem test_decode_ldaAbsoluteX : decode [0b10111101, 0xFC, 0x2F] = .ok (.ldaAbsoluteX 0x2FFC) [] := by decide

theorem test_decode_rejects_by_name :
    ∀ op ∈ ([0x01, 0xA0, 0xA2, 0xA6, 0xB6, 0xBE, 0xEA, 0x4C, 0xFF] : List Byte),
      decode [op, 0x00] = .reject (.invalidOpcode op) := by decide

theorem test_decode_truncated : decode [0xAD, 0x34] = .reject .truncated := by decide

theorem test_table_rows_differ : opcodeTable.Pairwise (fun r q => r.opcode ≠ q.opcode) := by decide

theorem test_table_word : decodeTableWord 8 0xAD = some (.ldaAbsolute 0x0000) := by decide
theorem test_table_word_operand : decodeTableWord 24 0x1234AD = some (.ldaAbsolute 0x1234) := by decide

theorem test_assembly : [Instr.ldaIndirectIndexed 0x24, .ldaAbsoluteX 0x2FFC, .brk].map assembly =
    ["LDA ($24),Y", "LDA $2FFC,X", "BRK"] := by decide

/-! ### Fetch of a stored word, the first step after reset -/

theorem test_fetch_word_runs_it : loadColumns (State.reset.withFetchWord 16 0x45A9) =
    some (0x45, false, false, 0x0202, 0) := by decide

/-! ### One step per instruction: the L and T vectors -/

theorem test_step_L1b : loadColumns { stateAt 0x0200 10 [0xA9, 0x00] [] with a := 0x33 } =
    some (0x00, true, false, 0x0202, 8) := by decide
theorem test_step_L9_top_of_memory : loadColumns (stateAt 0xFFFF 10 [0xA9, 0x80] []) =
    some (0x80, false, true, 0x0001, 8) := by decide
theorem test_step_L2 : loadColumns (stateAt 0x0200 10 [0xA5, 0x10] [(0x0010, 0x80)]) =
    some (0x80, false, true, 0x0202, 7) := by decide
theorem test_step_L3 :
    loadColumns { stateAt 0x0200 10 [0xB5, 0xFF] [(0x0001, 0x00), (0x0101, 0x55)] with x := 0x02 } =
      some (0x00, true, false, 0x0202, 6) := by decide
theorem test_step_L4_S6 : loadColumns (stateAt 0x0200 10 [0xAD, 0x34, 0x12] [(0x1234, 0x45)]) =
    some (0x45, false, false, 0x0203, 6) := by decide
theorem test_step_L4b_own_bytes : loadColumns (stateAt 0x0200 10 [0xAD, 0x00, 0x02] []) =
    some (0xAD, false, true, 0x0203, 6) := by decide
theorem test_step_L5b_page_crossed :
    loadColumns { stateAt 0x0200 10 [0xBD, 0xFF, 0x12] [(0x1300, 0x01)] with x := 0x01 } =
      some (0x01, false, false, 0x0203, 6) := by decide
theorem test_step_L5c_top_of_memory :
    loadColumns { stateAt 0x0200 10 [0xBD, 0xFF, 0xFF] [(0x0001, 0x7F)] with x := 0x02 } =
      some (0x7F, false, false, 0x0203, 6) := by decide
theorem test_step_L6 : loadColumns { stateAt 0x0200 10 [0xB9, 0x00, 0x40] [(0x4010, 0x7F)] with y := 0x10 } =
    some (0x7F, false, false, 0x0203, 6) := by decide
theorem test_step_L6b_page_crossed :
    loadColumns { stateAt 0x0200 10 [0xB9, 0xFF, 0x12] [(0x1300, 0xFF)] with y := 0x01 } =
      some (0xFF, false, true, 0x0203, 6) := by decide
theorem test_step_L7 :
    loadColumns { stateAt 0x0200 10 [0xA1, 0x20] [(0x0024, 0x00), (0x0025, 0x30), (0x3000, 0x80)] with x := 0x04 } =
      some (0x80, false, true, 0x0202, 4) := by decide
theorem test_step_L7b_pointer_leaves_zero_page :
    loadColumns (stateAt 0x0200 10 [0xA1, 0xFF] [(0x00FF, 0xCD), (0x0100, 0xAB), (0xABCD, 0x11)]) =
      some (0x11, false, false, 0x0202, 4) := by decide
theorem test_step_L8 :
    loadColumns { stateAt 0x0200 10 [0xB1, 0x24] [(0x0024, 0x00), (0x0025, 0x30)] with y := 0x10, a := 0x99 } =
      some (0x00, true, false, 0x0202, 5) := by decide
theorem test_step_L8b_page_crossed :
    loadColumns { stateAt 0x0200 10 [0xB1, 0x24] [(0x0024, 0xF0), (0x0025, 0x30), (0x3110, 0x90)] with y := 0x20 } =
      some (0x90, false, true, 0x0202, 5) := by decide
theorem test_step_T1_brk : runColumns (step { stateAt 0x0202 8 [0x00] [] with a := 0x45 }) =
    some ⟨0x0203, 1, .halted, []⟩ := by decide
theorem test_step_T11_brk_top_of_memory : runColumns (step (stateAt 0xFFFF 9 [0x00] [])) =
    some ⟨0x0000, 2, .halted, []⟩ := by decide
theorem test_step_T2_invalid : runColumns (step (stateAt 0x0300 5 [0xEA] [])) =
    some ⟨0x0301, 4, .reset, [(1, 0x0300, 0xEA)]⟩ := by decide

/-! ### The resolver at its own interface: modes no opcode reaches (A vectors) -/

theorem test_resolve_A6b_zeropageY :
    (resolve .zeropageY { stateAt 0x0201 0 [0xFF] [] with y := 0x02 }).1 = some 0x0001 := by decide
theorem test_resolve_A7b_relative : (resolve .relative (stateAt 0x0201 0 [0x80] [])).1 = some 0x0182 := by decide
theorem test_resolve_A7h_relative_wraps : (resolve .relative (stateAt 0xFFFE 0 [0x7F] [])).1 = some 0x007E := by decide
theorem test_resolve_A11b_indirect :
    (resolve .indirect (stateAt 0x0201 0 [0xFF, 0x12] [(0x12FF, 0x78), (0x1300, 0x56), (0x1200, 0x99)])).1 =
      some 0x5678 := by decide
theorem test_resolve_A2_accumulator : resolve .accumulator (stateAt 0x0201 0 [] []) =
    (none, stateAt 0x0201 0 [] []) := by decide

/-! ### Flags, packed byte, memory -/

theorem test_flags_V6 : (State.reset.updateCV 0x50 0x50 false).1 = 0xA0 ∧
    (State.reset.updateCV 0x50 0x50 false).2.flags.c = false ∧
    (State.reset.updateCV 0x50 0x50 false).2.flags.v = true := by decide
theorem test_flags_V7 : (State.reset.updateCV 0x50 0xEF true).1 = 0x40 ∧
    (State.reset.updateCV 0x50 0xEF true).2.flags.c = true ∧
    (State.reset.updateCV 0x50 0xEF true).2.flags.v = false := by decide
theorem test_pack_K4 : unpack 0xC3 =
    { n := true, v := true, b := false, d := false, i := false, z := true, c := true } ∧
    pack (unpack 0xC3) = 0xE3 := by decide
theorem test_memory_M2 : Memory.readWord [(0, 0xAB), (65535, 0xCD)] 0xFFFF = 0xABCD := by decide
theorem test_memory_M4 : Memory.writeWord [] 0xFFFF 0x1234 = [(0, 0x12), (65535, 0x34)] := by decide
theorem test_memory_blank_removes : Memory.write [(3, 0x07)] 0x0003 0x00 = [] := by decide

/-! ### Run, reset, host -/

theorem test_run_T5_negative_budget : runColumns (run (BitVec.ofInt 64 (-5)) State.reset) =
    some ⟨0x0200, 0, .exhausted, []⟩ := by decide
theorem test_run_T3_exhausted : runColumns (run 1 (stateAt 0x0200 0 [0xFF] [])) =
    some ⟨0x0201, 0, .exhausted, [(1, 0x0200, 0xFF)]⟩ := by decide
theorem test_run_T7b_halt_wins : runColumns (run 1 State.reset) = some ⟨0x0201, 0, .halted, []⟩ := by decide
theorem test_reset_Z1_keeps_memory :
    hostMove .reset { stateAt 0x0300 5 [0xA9] [] with status := .running } =
      .next { State.reset with mem := [(0x0300, 0xA9)] } := rfl

/-! ### Witnesses: concrete inputs that meet each obligation's hypotheses together -/

theorem witness_DecodedBytesAreTheEncoding :
    decode [0xBD, 0xFC, 0x2F, 0x00] = .ok (.ldaAbsoluteX 0x2FFC) [0x00] := by decide

theorem witness_TheOther247OpcodesAreInvalid_below :
    (0x01 : Byte) ∉ ([0x00, 0xA1, 0xA5, 0xA9, 0xAD, 0xB1, 0xB5, 0xB9, 0xBD] : List Byte) := by decide
theorem witness_TheOther247OpcodesAreInvalid_above :
    (0xBE : Byte) ∉ ([0x00, 0xA1, 0xA5, 0xA9, 0xAD, 0xB1, 0xB5, 0xB9, 0xBD] : List Byte) := by decide

theorem witness_StepRunsTheDecodedInstruction :
    decode (stateAt 0x0200 10 [0xA5, 0x10, 0x77] []).fetchBytes = .ok (.ldaZeropage 0x10) [0x77] := by decide

theorem witness_StepRunsTheEncodedInstruction :
    (stateAt 0xFFFE 10 [0xAD, 0x34, 0x12] []).standsAtPc (.ldaAbsolute 0x1234) := by
  unfold State.standsAtPc
  decide

theorem witness_AnInvalidOpcodeIsReportedAndPassed :
    (stateAt 0xFFFF 1 [0xEA] []).opcode ∉
      ([0x00, 0xA1, 0xA5, 0xA9, 0xAD, 0xB1, 0xB5, 0xB9, 0xBD] : List Byte) := by decide

theorem witness_BrkHaltsAndDoesNothingElse : (stateAt 0xFFFF 8 [0x00] []).opcode = 0x00 := by decide

theorem witness_LdaImmediateLoadsItsOperand :
    (stateAt 0xFFFF 10 [0xA9, 0x80] []).opcode = 0xA9 ∧
    Memory.byteAt (stateAt 0xFFFF 10 [0xA9, 0x80] []).mem ((0xFFFF + 1) % 65536) = 0x80 := by decide

theorem witness_LdaZeropageLoadsFromTheZeroPage :
    (stateAt 0x0200 10 [0xA5, 0xFF] []).opcode = 0xA5 ∧
    Memory.byteAt (stateAt 0x0200 10 [0xA5, 0xFF] []).mem ((0x0200 + 1) % 65536) = 0xFF := by decide

theorem witness_LdaZeropageXWrapsInsideTheZeroPage :
    (stateAt 0x0200 10 [0xB5, 0xFF] []).opcode = 0xB5 ∧
    Memory.byteAt (stateAt 0x0200 10 [0xB5, 0xFF] []).mem ((0x0200 + 1) % 65536) = 0xFF := by decide

theorem witness_LdaAbsoluteLoadsFromItsAddress :
    (stateAt 0xFFFE 10 [0xAD, 0x34, 0x12] []).opcode = 0xAD ∧
    wordAt (stateAt 0xFFFE 10 [0xAD, 0x34, 0x12] []).mem ((0xFFFE + 1) % 65536) = (0x1234 : Addr).toNat := by decide

theorem witness_LdaAbsoluteXAddsTheIndex :
    (stateAt 0x0200 10 [0xBD, 0xFF, 0xFF] []).opcode = 0xBD ∧
    wordAt (stateAt 0x0200 10 [0xBD, 0xFF, 0xFF] []).mem ((0x0200 + 1) % 65536) = (0xFFFF : Addr).toNat := by decide

theorem witness_LdaAbsoluteYAddsTheIndex :
    (stateAt 0x0200 10 [0xB9, 0xFF, 0xFF] []).opcode = 0xB9 ∧
    wordAt (stateAt 0x0200 10 [0xB9, 0xFF, 0xFF] []).mem ((0x0200 + 1) % 65536) = (0xFFFF : Addr).toNat := by decide

theorem witness_LdaIndexedIndirectLoadsThroughThePointer :
    (stateAt 0x0200 10 [0xA1, 0xFF] []).opcode = 0xA1 ∧
    Memory.byteAt (stateAt 0x0200 10 [0xA1, 0xFF] []).mem ((0x0200 + 1) % 65536) = 0xFF := by decide

theorem witness_LdaIndirectIndexedAddsTheIndexToThePointer :
    (stateAt 0x0200 10 [0xB1, 0xFF] []).opcode = 0xB1 ∧
    Memory.byteAt (stateAt 0x0200 10 [0xB1, 0xFF] []).mem ((0x0200 + 1) % 65536) = 0xFF := by decide

theorem witness_TheLoadHandlerKeepsItsContract_supported : supportedLda .indirectIndexed = true := by decide
theorem witness_TheLoadHandlerKeepsItsContract_unsupported : supportedLda .zeropageY = false := by decide
theorem witness_TheCostOfALoadIsItsModes : supportedLda .absoluteX = true := by decide
theorem witness_AModeFaultStopsTheRunAndIsUnreachable_unsupported : supportedLda .relative = false := by decide
theorem witness_AModeFaultStopsTheRunAndIsUnreachable_decoded : decodeOpcode 0xBD = .lda .absoluteX := by decide
theorem witness_AModeFaultStopsTheRunAndIsUnreachable_status :
    runColumns (step { stateAt 0x0300 5 [0xEA] [] with status := .modeFault }) =
      some ⟨0x0301, 4, .modeFault, [(1, 0x0300, 0xEA)]⟩ := by decide

theorem witness_ResolveReadsPcXYAndMemoryAndWritesPc :
    ({ State.reset with a := 0x55, sp := 0x66, cyc := 3 } : State).pc = State.reset.pc ∧
    ({ State.reset with a := 0x55, sp := 0x66, cyc := 3 } : State).x = State.reset.x ∧
    ({ State.reset with a := 0x55, sp := 0x66, cyc := 3 } : State).y = State.reset.y ∧
    ({ State.reset with a := 0x55, sp := 0x66, cyc := 3 } : State).mem = State.reset.mem := by decide

theorem witness_TheModeSelectsTheIndexRegister_x : Mode.absoluteY ∉ [Mode.zeropageX, .absoluteX, .indexedIndirect] := by decide
theorem witness_TheModeSelectsTheIndexRegister_y : Mode.absoluteX ∉ [Mode.zeropageY, .absoluteY, .indirectIndexed] := by decide

/-- Agreement on a list of cells from its check cell by cell. -/
theorem agree_of_all {m k : Memory} {l : List Addr} (h : l.all (fun a => m.read a == k.read a) = true) :
    ∀ a ∈ l, m.read a = k.read a :=
  fun a ha => eq_of_beq (List.all_eq_true.1 h a ha)

theorem witness_TheResolverReadsTheListedCellsOnly :
    ∀ a ∈ resolverReads .indexedIndirect (stateAt 0x0201 0 [0xFF] [(0x0100, 0xAB)]),
      Memory.read [(0x0100, 0xAB), (0x0201, 0xFF), (0x4000, 0x77)] a =
        (stateAt 0x0201 0 [0xFF] [(0x0100, 0xAB)]).mem.read a := agree_of_all (by decide)

theorem witness_AStepReadsAtMostSixCells :
    ∀ a ∈ stepReads (stateAt 0x0200 9 [0xA1, 0xFF] [(0x0100, 0xAB)]),
      Memory.read [(0x0100, 0xAB), (0x0200, 0xA1), (0x0201, 0xFF), (0x4000, 0x77)] a =
        (stateAt 0x0200 9 [0xA1, 0xFF] [(0x0100, 0xAB)]).mem.read a := agree_of_all (by decide)

theorem witness_FlagsAfterALoadFollowTheLoadedByte : (Instr.ldaImmediate 0x80).handler = .load := by decide

theorem witness_WordsAreTwoBytesLowByteFirst :
    (0x0001 : Addr) ≠ 0xFFFF ∧ (0x0001 : Addr) ≠ 0xFFFF + 1 := by decide

theorem witness_CanonicalMemoriesThatReadAlikeAreEqual :
    Memory.wf (Memory.write [(3, 0x07)] 0xFFFF 0x01) ∧ Memory.wf [(3, 0x07), (65535, 0x01)] ∧
    Memory.write [(3, 0x07)] 0xFFFF 0x01 = [(3, 0x07), (65535, 0x01)] := by decide

theorem witness_EveryStepKeepsTheInvariant_inv :
    { stateAt 0x0301 5 [0xEB] [(0x0300, 0xEA)] with reports := [⟨.invalidOpcode, 0x0300, 0xEA⟩] }.Inv :=
  ⟨by decide, by decide, by decide, by unfold State.goneWrong; decide⟩
theorem witness_EveryStepKeepsTheInvariant_step :
    runColumns (step { stateAt 0x0301 5 [0xEB] [(0x0300, 0xEA)] with reports := [⟨.invalidOpcode, 0x0300, 0xEA⟩] }) =
      some ⟨0x0302, 4, .reset, [(1, 0x0300, 0xEA), (1, 0x0301, 0xEB)]⟩ := by decide

theorem witness_AStepWritesOnlyWhatTheTableNames : decodeOpcode (stateAt 0x0300 5 [0xEA] []).opcode = .invalid 0xEA := by decide

theorem witness_NoStepReadsTheAccumulatorStackPointerOrFlags_load :
    decodeOpcode (stateAt 0x0200 9 [0xA1, 0xFF] []).opcode = .lda .indexedIndirect := by decide
theorem witness_NoStepReadsTheAccumulatorStackPointerOrFlags_other :
    decodeOpcode (stateAt 0x0200 9 [0x00] []).opcode = .brk := by decide

theorem witness_AnEmptyBudgetRunsNothing : (BitVec.ofInt 64 (-5)).toInt ≤ 0 ∧ (0 : Cycles).toInt ≤ 0 := by decide

theorem witness_AHaltWinsOverExhaustion : 0 < (1 : Cycles).toInt ∧ State.reset.opcode = 0x00 := by decide

theorem witness_TheHostMovesOnlyWhileStopped_stopped : State.reset.status ≠ .running := by decide
theorem witness_TheHostMovesOnlyWhileStopped_running :
    (State.reset.beginRun 5).status = .running ∧ HostMove.step ≠ HostMove.reset := by decide

theorem witness_EveryHostMoveKeepsMemoryCanonical :
    State.reset.mem.wf ∧ hostMove (.writeWord 0xFFFF 0x1234) State.reset =
      .next { State.reset with mem := [(0, 0x12), (65535, 0x34)] } := ⟨by decide, rfl⟩

end Sys2Proof.Tests
end

section
namespace Sys2Proof.Machine

/-- Only the halt names no byte: every instruction of the load handler loads one (R74, R120). -/
theorem loadedByte_eq_some_of_load (i : Instr) (s : State) (h : i.handler = .load) :
    ∃ v, loadedByte i s = some v := by
  cases i with
  | brk => simp [Instr.handler] at h
  | _ => exact ⟨_, rfl⟩

/-- A load instruction completes, and its next state is `Loaded` with the byte it names (R120 to R129). -/
theorem exec_loaded_of_load (i : Instr) (s : State) (h : i.handler = .load) :
    ∃ v t, loadedByte i s = some v ∧ exec i s = .next t ∧ Loaded s t v i.mode.width (ldaCost i.mode) := by
  obtain ⟨v, hv⟩ := loadedByte_eq_some_of_load i s h
  refine ⟨v, loadAccumulator i.mode v false s, hv, ?_, loadAccumulator_loaded i.mode v false s⟩
  rw [exec_eq, hv]

/-- Settles O37: the new `A` is the loaded byte, so what `Loaded` says of `Z` and `N` from that byte holds of `A`. -/
theorem flagsAfterALoadFollowTheLoadedByte : Obligations.FlagsAfterALoadFollowTheLoadedByte := by
  intro i s hi
  obtain ⟨v, t, -, hexec, hloaded⟩ := exec_loaded_of_load i s hi
  obtain rfl : t.a = v := hloaded.accumulator
  exact ⟨t, hexec, hloaded.zero, hloaded.negative, hloaded.carry, hloaded.interrupt, hloaded.decimal, hloaded.brk,
    hloaded.overflow⟩

end Sys2Proof.Machine
end

section
namespace Sys2Proof.Machine

@[simp] theorem halt_mem (s : State) : (halt s).mem = s.mem := by rw [halt_eq]

@[simp] theorem invalidOpcode_mem (s : State) (a : Addr) (op : Byte) : (s.invalidOpcode a op).mem = s.mem := by
  rw [invalidOpcode_eq]

@[simp] theorem loadAccumulator_mem (m : Mode) (v : Byte) (s : State) :
    (loadAccumulator m v false s).mem = s.mem :=
  (loadAccumulator_loaded m v false s).memory

/-- No instruction performs a `MemWrite` (`20_memory.md` R52): the memory after a step is the one before it. -/
theorem step_keeps_mem (s : State) : ∃ t, step s = .next t ∧ t.mem = s.mem := by
  obtain ⟨-, hstep⟩ | ⟨m, ea, -, -, hstep⟩ | ⟨-, hstep⟩ := step_cases s
  · exact ⟨_, hstep, by simp⟩
  · exact ⟨_, hstep, by simp⟩
  · exact ⟨_, hstep, by simp⟩

/-- Settles O38: read after write, and that a step keeps the whole memory, so every byte of it. -/
theorem aByteWriteChangesOneCell : Obligations.AByteWriteChangesOneCell := by
  refine ⟨Memory.read_write, fun s => ?_⟩
  obtain ⟨t, hstep, hmem⟩ := step_keeps_mem s
  exact ⟨t, hstep, fun a => by rw [hmem]⟩

end Sys2Proof.Machine
end

section
namespace Sys2Proof.Machine

/-! ### The cells the resolver reads -/

/-- The lengths of R105, mode by mode. -/
theorem resolverReads_length (m : Mode) (s : State) :
    (resolverReads m s).length =
      (if m ∈ [Mode.implicit, .accumulator, .immediate] then 0
       else if m ∈ [Mode.zeropage, .zeropageX, .zeropageY, .relative] then 1
       else if m ∈ [Mode.absolute, .absoluteX, .absoluteY] then 2
       else if m = .indirect then 4 else 3) := by
  cases m <;> rfl

/-- A word read depends on its two cells only (`20_memory.md` R53). -/
theorem Memory.readWord_congr {mem other : Memory} {a : Addr}
    (h : ∀ b ∈ wordReads a, other.read b = mem.read b) : other.readWord a = mem.readWord a := by
  simp only [wordReads, List.forall_mem_cons] at h
  obtain ⟨hfirst, hsecond, -⟩ := h
  rw [Memory.readWord, hfirst, hsecond, Memory.readWord]

theorem operandByte_congr {s : State} {other : Memory} (h : other.read s.pc = s.mem.read s.pc) :
    operandByte { s with mem := other } = operandByte s := h

theorem operandWord_congr {s : State} {other : Memory}
    (h : ∀ a ∈ wordReads s.pc, other.read a = s.mem.read a) :
    operandWord { s with mem := other } = operandWord s :=
  Memory.readWord_congr h

/-- The address a mode gives depends on no cell but those of `resolverReads` (R105): the operand is the same, so a
pointer read from it stands at the same cells, which agree as well. -/
theorem effectiveAddress_congr {m : Mode} {s : State} {other : Memory}
    (h : ∀ a ∈ resolverReads m s, other.read a = s.mem.read a) :
    effectiveAddress m { s with mem := other } = effectiveAddress m s := by
  cases m with
  | implicit | accumulator | immediate => rfl
  | zeropage | zeropageX | zeropageY | relative =>
    have hd := operandByte_congr (h s.pc (by simp [resolverReads]))
    simp only [effectiveAddress, hd, zeropageXAddr, zeropageYAddr]
  | absolute | absoluteX | absoluteY =>
    have hw := operandWord_congr h
    simp only [effectiveAddress, hw, absoluteXAddr, absoluteYAddr]
  | indirect =>
    obtain ⟨hoperand, hpointer⟩ := List.forall_mem_append.1 h
    have hw := operandWord_congr hoperand
    simp only [effectiveAddress, hw, indirectAddr, Memory.readWord_congr hpointer]
  | indexedIndirect =>
    obtain ⟨hoperand, hpointer⟩ := List.forall_mem_cons.1 h
    have hd := operandByte_congr hoperand
    simp only [effectiveAddress, hd, indexedIndirectAddr, Memory.readWord_congr hpointer]
  | indirectIndexed =>
    obtain ⟨hoperand, hpointer⟩ := List.forall_mem_cons.1 h
    have hd := operandByte_congr hoperand
    simp only [effectiveAddress, hd, indirectIndexedAddr, indirectBase, Memory.readWord_congr hpointer]

/-- Settles O32: the lengths by mode, and that the address depends on the listed cells only. -/
theorem theResolverReadsTheListedCellsOnly : Obligations.TheResolverReadsTheListedCellsOnly :=
  fun m s _ => ⟨resolverReads_length m s, effectiveAddress_congr⟩

end Sys2Proof.Machine
end

section
namespace Sys2Proof.Machine

/-! ### What the resolver does to the state -/

/-- The resolver moves `PC` past the operand, modulo 65536 (`40_addressing_resolver.md` R106). -/
theorem resolve_pc_toNat (m : Mode) (s : State) :
    (resolve m s).2.pc.toNat = (s.pc.toNat + m.width) % 65536 :=
  advance_pc_toNat s m.width

/-- The resolver writes `PC` only (R90). -/
theorem resolve_frame (m : Mode) (s : State) : (resolve m s).2 = { s with pc := (resolve m s).2.pc } := rfl

/-- Settles O23: the address is `PC` itself, and the mode's operand is one byte. -/
theorem resolveImmediateIsTheOperandsOwnAddress : Obligations.ResolveImmediateIsTheOperandsOwnAddress :=
  fun s => ⟨rfl, resolve_pc_toNat .immediate s, resolve_frame .immediate s⟩

theorem width_eq_one_of_zeropage {m : Mode} (h : m ∈ [Mode.zeropage, .zeropageX, .zeropageY]) : m.width = 1 := by
  revert m
  decide

/-- Settles O25: the three addresses as numbers, and `PC` past the one operand byte of each of the modes. -/
theorem resolveZeroPageModesStayInTheZeroPage : Obligations.ResolveZeroPageModesStayInTheZeroPage := by
  intro s
  refine ⟨⟨_, rfl, zeropageAddr_toNat (operandByte s)⟩, ⟨_, rfl, zeropageXAddr_toNat (operandByte s) s⟩,
    ⟨_, rfl, zeropageYAddr_toNat (operandByte s) s⟩, fun m hm => ⟨?_, resolve_frame m s⟩⟩
  rw [resolve_pc_toNat, width_eq_one_of_zeropage hm]

end Sys2Proof.Machine
end

section
namespace Sys2Proof.Machine

/-! ### What `UpdateZN` writes -/

/-- The two forms of the negative test agree: `v ||| 0x7F` has bits 6 to 0 set and bit 7 of `v`
(`41_flag_updater.md` R112). -/
theorem getLsbD_seven_iff_or_eq (v : Byte) : v.getLsbD 7 = true ↔ v ||| 0x7F = 0xFF := by
  revert v
  decide

theorem updateZN_z_iff (s : State) (v : Byte) : (s.updateZN v).flags.z = true ↔ v.toNat = 0 := by
  rw [updateZN_flags_z, beq_iff_eq, ← BitVec.toNat_inj, BitVec.ofNat_eq_ofNat, BitVec.toNat_zero]

/-- `UpdateZN` writes `Z` and `N` only (R110). -/
theorem updateZN_frame (s : State) (v : Byte) :
    s.updateZN v = { s with flags := { s.flags with z := (s.updateZN v).flags.z, n := (s.updateZN v).flags.n } } := rfl

/-- Settles O34: `Z` by the zero test, `N` by both forms of the bit 7 test, and the frame. -/
theorem updateZNFollowsTheValue : Obligations.UpdateZNFollowsTheValue :=
  fun s v => ⟨updateZN_z_iff s v, getLsbD_seven_iff v, getLsbD_seven_iff_or_eq v, updateZN_frame s v⟩

end Sys2Proof.Machine
end

section
namespace Sys2Proof.Machine

/-! ### The encoder and the decoder undo each other -/

/-- Decoding an encoding gives the instruction back; only an operand word is taken apart and joined again (R70, R73). -/
theorem decode_encode_append (i : Instr) (rest : List Byte) : decode (encode i ++ rest) = .ok i rest := by
  cases i with
  | brk | ldaIndexedIndirect d | ldaZeropage d | ldaImmediate d | ldaIndirectIndexed d | ldaZeropageX d => rfl
  | ldaAbsolute w => exact congrArg (fun v => Decoded.ok (.ldaAbsolute v) rest) (joinWord_first_second w)
  | ldaAbsoluteY w => exact congrArg (fun v => Decoded.ok (.ldaAbsoluteY v) rest) (joinWord_first_second w)
  | ldaAbsoluteX w => exact congrArg (fun v => Decoded.ok (.ldaAbsoluteX v) rest) (joinWord_first_second w)

/-- Settles O2: instruction by instruction. -/
theorem decodeOfEncodeIsTheInstruction : Obligations.DecodeOfEncodeIsTheInstruction := decode_encode_append

/-- What a table lookup finds is a row of the table (R74). -/
theorem lookupOpcode_mem_or_invalid (op : Byte) (rows : List OpcodeRow) :
    { opcode := op, selects := lookupOpcode op rows } ∈ rows ∨ lookupOpcode op rows = .invalid op := by
  induction rows with
  | nil => exact .inr rfl
  | cons r rows ih =>
    by_cases h : r.opcode = op
    · subst h
      exact .inl (by simp [lookupOpcode])
    · simp only [lookupOpcode, if_neg h]
      exact ih.imp (List.mem_cons_of_mem r) id

/-- The opcode byte of the halt is the table's (R74). -/
theorem eq_of_decodeOpcode_brk {op : Byte} (h : decodeOpcode op = .brk) : op = 0x00 := by
  obtain hrow | hinv := lookupOpcode_mem_or_invalid op opcodeTable
  · rw [← decodeOpcode, h] at hrow
    simpa [opcodeTable] using hrow
  · rw [← decodeOpcode, h] at hinv
    cases hinv

/-- The opcode byte of a load is the one its mode has in the table (R74). -/
theorem mem_loadRows_of_decodeOpcode_lda {op : Byte} {m : Mode} (h : decodeOpcode op = .lda m) :
    (op = 0xA1 ∧ m = .indexedIndirect) ∨ (op = 0xA5 ∧ m = .zeropage) ∨ (op = 0xA9 ∧ m = .immediate) ∨
    (op = 0xAD ∧ m = .absolute) ∨ (op = 0xB1 ∧ m = .indirectIndexed) ∨ (op = 0xB5 ∧ m = .zeropageX) ∨
    (op = 0xB9 ∧ m = .absoluteY) ∨ (op = 0xBD ∧ m = .absoluteX) := by
  obtain hrow | hinv := lookupOpcode_mem_or_invalid op opcodeTable
  · rw [← decodeOpcode, h] at hrow
    simpa [opcodeTable] using hrow
  · rw [← decodeOpcode, h] at hinv
    cases hinv

/-- Format F2 reads back as opcode and operand byte (R71). -/
theorem eq_encode_of_withByte {k : Byte → Instr} {op : Byte} (hk : ∀ d, encode (k d) = [op, d]) {bs : List Byte}
    {i : Instr} {rest : List Byte} (h : withByte k bs = .ok i rest) : op :: bs = encode i ++ rest := by
  cases bs with
  | nil => cases h
  | cons d bs =>
    cases h
    rw [hk]
    rfl

/-- Format F3 reads back as opcode and the two bytes of the operand word (R71, R73). -/
theorem eq_encode_of_withWord {k : Addr → Instr} {op : Byte} (hk : ∀ w, encode (k w) = [op, wordFirst w, wordSecond w])
    {bs : List Byte} {i : Instr} {rest : List Byte} (h : withWord k bs = .ok i rest) :
    op :: bs = encode i ++ rest := by
  match bs, h with
  | b0 :: b1 :: bs, h =>
    cases h
    rw [hk, wordFirst_joinWord, wordSecond_joinWord]
    rfl

/-- Settles O3: the opcode byte is that of the row found, and the operand's bytes are the encoder's for the row's format. -/
theorem decodedBytesAreTheEncoding : Obligations.DecodedBytesAreTheEncoding := by
  intro bs i rest h
  cases bs with
  | nil => cases h
  | cons op bs =>
    cases hop : decodeOpcode op with
    | brk =>
      obtain rfl := eq_of_decodeOpcode_brk hop
      cases h
      rfl
    | invalid o =>
      simp only [decode, hop] at h
      cases h
    | lda m =>
      simp only [decode, hop] at h
      obtain ⟨rfl, rfl⟩ | ⟨rfl, rfl⟩ | ⟨rfl, rfl⟩ | ⟨rfl, rfl⟩ | ⟨rfl, rfl⟩ | ⟨rfl, rfl⟩ | ⟨rfl, rfl⟩ | ⟨rfl, rfl⟩ :=
        mem_loadRows_of_decodeOpcode_lda hop
      · exact eq_encode_of_withByte (fun _ => rfl) h
      · exact eq_encode_of_withByte (fun _ => rfl) h
      · exact eq_encode_of_withByte (fun _ => rfl) h
      · exact eq_encode_of_withWord (fun _ => rfl) h
      · exact eq_encode_of_withByte (fun _ => rfl) h
      · exact eq_encode_of_withByte (fun _ => rfl) h
      · exact eq_encode_of_withWord (fun _ => rfl) h
      · exact eq_encode_of_withWord (fun _ => rfl) h

/-- Settles O1: each row is evaluated. -/
theorem theWordsOfTheTableDecodeToTheirInstructions : Obligations.TheWordsOfTheTableDecodeToTheirInstructions :=
  ⟨rfl, rfl, rfl, rfl, rfl, rfl, rfl, rfl, rfl⟩

/-- Settles O4: the lookup in the nine rows, row by row, is the case list. -/
theorem decodeFollowsTheSpecsCases : Obligations.DecodeFollowsTheSpecsCases := by
  intro op
  simp only [decodeOpcode, opcodeTable, lookupOpcode, eq_comm (b := op)]

/-- A byte is invalid exactly when it is none of the nine opcodes (R76). -/
theorem decodeOpcode_eq_invalid_iff (op : Byte) : decodeOpcode op = .invalid op ↔
    op ∉ ([0x00, 0xA1, 0xA5, 0xA9, 0xAD, 0xB1, 0xB5, 0xB9, 0xBD] : List Byte) := by
  revert op
  decide

/-- The load opcodes by their bits: `op & 0xE3 = 0xA1` (R74's remark). -/
theorem decodeOpcode_lda_iff (op : Byte) : (∃ m, decodeOpcode op = .lda m) ↔ op &&& 0xE3 = 0xA1 := by
  constructor
  · rintro ⟨m, hm⟩
    obtain ⟨rfl, -⟩ | ⟨rfl, -⟩ | ⟨rfl, -⟩ | ⟨rfl, -⟩ | ⟨rfl, -⟩ | ⟨rfl, -⟩ | ⟨rfl, -⟩ | ⟨rfl, -⟩ :=
      mem_loadRows_of_decodeOpcode_lda hm <;> rfl
  · intro h
    have hloads : ∀ op : Byte, op &&& 0xE3 = 0xA1 →
        op ∈ ([0xA1, 0xA5, 0xA9, 0xAD, 0xB1, 0xB5, 0xB9, 0xBD] : List Byte) := by decide
    have hmem := hloads op h
    simp only [List.mem_cons, List.not_mem_nil, or_false] at hmem
    obtain rfl | rfl | rfl | rfl | rfl | rfl | rfl | rfl := hmem <;> exact ⟨_, rfl⟩

/-- Settles O5: a byte outside the table is invalid, the count is evaluated, and the loads are told by their bits. -/
theorem theOther247OpcodesAreInvalid : Obligations.TheOther247OpcodesAreInvalid := by
  refine ⟨fun op rest hop => ?_, by decide +kernel, decodeOpcode_lda_iff⟩
  have hinvalid := (decodeOpcode_eq_invalid_iff op).2 hop
  simp [decode, opcodeLength, hinvalid]

theorem encode_length (i : Instr) : (encode i).length = 1 + i.mode.width := by
  cases i <;> rfl

/-- The opcode byte tells the length of the encoding it begins (R78). -/
theorem encode_eq_opcode_cons (i : Instr) :
    ∃ op operand, encode i = op :: operand ∧ opcodeLength op = (encode i).length := by
  cases i <;> exact ⟨_, _, rfl, rfl⟩

/-- Settles O6: the length by mode, and the length from the first byte. -/
theorem theLengthIsKnownFromTheFirstByte : Obligations.TheLengthIsKnownFromTheFirstByte :=
  fun i => ⟨encode_length i, encode_eq_opcode_cons i⟩

end Sys2Proof.Machine
end

section
namespace Sys2Proof.Machine

/-! ### A step and the instruction it runs -/

theorem opcodeFetched_eq (s : State) : s.opcodeFetched = { s with pc := s.pc + 1 } :=
  congrArg (fun pc => { s with pc := pc }) (add16_eq s.pc 1)

/-- A step runs the instruction that the decoder answers (R140). -/
theorem step_of_decode {s : State} {i : Instr} {rest : List Byte} (h : decode s.fetchBytes = .ok i rest) :
    step s = exec i s.opcodeFetched := by
  simp only [step, h]

/-- Settles O7: `exec` of the decoded instruction, the opcode fetch written as a record update. -/
theorem stepRunsTheDecodedInstruction : Obligations.StepRunsTheDecodedInstruction := by
  intro s i rest h
  rw [step_of_decode h, opcodeFetched_eq]

/-- A step runs the instruction that stands at `PC`: the fetched bytes are its encoding and what follows. -/
theorem step_of_standsAtPc {s : State} {i : Instr} (h : s.standsAtPc i) : step s = exec i s.opcodeFetched := by
  have hbytes : s.fetchBytes = encode i ++ s.fetchBytes.drop (encode i).length := by
    conv_lhs => rw [← List.take_append_drop (encode i).length s.fetchBytes, h]
  exact step_of_decode ((congrArg decode hbytes).trans (decode_encode_append i _))

/-- Settles O8: the fetched bytes decode to the instruction, as decoding undoes encoding. -/
theorem stepRunsTheEncodedInstruction : Obligations.StepRunsTheEncodedInstruction := by
  intro s i h
  rw [step_of_standsAtPc h, opcodeFetched_eq]

/-- Settles O9: in each of the three cases of a step, `Step()` decodes the same byte and does the same. -/
theorem stepIsTheByteLevelStep : Obligations.StepIsTheByteLevelStep := by
  intro s
  obtain ⟨hop, hstep⟩ | ⟨m, ea, hop, hea, hstep⟩ | ⟨hop, hstep⟩ := step_cases s
  · rw [State.opcode] at hop
    simp only [hstep, byteStep, hop]
  · have hhandler := ldaHandler_supported s.pc s.opcode m s.opcodeFetched ea (decodeOpcode_lda_supported _ _ hop) hea
    rw [State.opcode] at hop hhandler
    simp only [hstep, byteStep, hop, hhandler, opcodeFetched_mem]
  · rw [State.opcode] at hop hstep
    simp only [hstep, byteStep, hop]

/-- Settles O10: an invalid opcode is reported on the state after the opcode fetch, which moved `PC`. -/
theorem anInvalidOpcodeIsReportedAndPassed : Obligations.AnInvalidOpcodeIsReportedAndPassed := by
  intro s hop
  refine ⟨_, step_of_invalid s _ ((decodeOpcode_eq_invalid_iff _).2 hop), opcodeFetched_pc_toNat s,
    satsub_toInt s.cyc 1, ?_, rfl⟩
  simp [invalidOpcode_eq, Report.triple, ErrorKind.code]

/-- Settles O11: `exec` of the halt is `halt`, and a step runs it on the state after the opcode fetch. -/
theorem brkHaltsAndDoesNothingElse : Obligations.BrkHaltsAndDoesNothingElse := by
  intro s
  refine ⟨⟨halt s, exec_eq .brk s, rfl, satsub_toInt s.cyc 7, ?_⟩, fun hop => ?_⟩
  · rw [halt_eq]
  · have hbrk : decodeOpcode s.opcode = .brk := by rw [hop]; rfl
    refine ⟨_, step_of_brk s hbrk, rfl, satsub_toInt s.cyc 7, ?_, ?_⟩
    · rw [halt_eq]
      exact opcodeFetched_pc_toNat s
    · rw [halt_eq]
      rfl

end Sys2Proof.Machine
end

section
namespace Sys2Proof.Machine

/-! ### The eight loads -/

/-- An instruction that loads the byte of an address leaves what a load of that byte leaves. -/
theorem exec_loaded_of_address {i : Instr} {s : State} {ea : Addr} (h : loadedByte i s = some (s.mem.read ea)) :
    ∃ t, exec i s = .next t ∧ Loaded s t (Memory.byteAt s.mem ea.toNat) i.mode.width (ldaCost i.mode) := by
  refine ⟨_, exec_eq i s, ?_⟩
  rw [h]
  exact loadAccumulator_loaded i.mode (s.mem.read ea) false s

/-- What `exec` loads after the opcode fetch, a step from the bytes in memory loads (R140). -/
theorem step_loaded_of_standsAtPc {i : Instr} {s : State} {v : Byte} {width cost : Nat} (hi : s.standsAtPc i)
    (hexec : ∃ t, exec i s.opcodeFetched = .next t ∧ Loaded s.opcodeFetched t v width cost) :
    ∃ t, step s = .next t ∧ Loaded s t v (1 + width) cost := by
  obtain ⟨t, ht, hloaded⟩ := hexec
  exact ⟨t, (step_of_standsAtPc hi).trans ht, hloaded.fromFetch⟩

theorem read_pc_succ (s : State) (k : Nat) :
    s.mem.read (add16 s.pc (BitVec.ofNat 16 k)) = Memory.byteAt s.mem ((s.pc.toNat + k) % 65536) :=
  congrArg (Memory.byteAt s.mem) (advance_pc_toNat s k)

/-- An instruction of format F2 stands at `PC` (R71). -/
theorem standsAtPc_of_byte {s : State} {i : Instr} {op d : Byte} (hi : encode i = [op, d]) (hop : s.opcode = op)
    (hd : Memory.byteAt s.mem ((s.pc.toNat + 1) % 65536) = d) : s.standsAtPc i := by
  rw [State.standsAtPc, hi, fetchBytes_eq, hop, ← hd, ← read_pc_succ]
  rfl

/-- An instruction of format F3 stands at `PC`, low operand byte first (R71, D1). -/
theorem standsAtPc_of_word {s : State} {i : Instr} {op : Byte} {w : Addr}
    (hi : encode i = [op, wordFirst w, wordSecond w]) (hop : s.opcode = op)
    (hw : wordAt s.mem ((s.pc.toNat + 1) % 65536) = w.toNat) : s.standsAtPc i := by
  have hjoin : joinWord (s.mem.read (add16 s.pc 1)) (s.mem.read (add16 s.pc 2)) = w := by
    apply BitVec.eq_of_toNat_eq
    rw [joinWord_toNat, ← hw, wordAt, Nat.mod_add_mod, Nat.add_assoc, ← read_pc_succ, ← read_pc_succ]
    rfl
  rw [State.standsAtPc, hi, fetchBytes_eq, hop, ← hjoin, wordFirst_joinWord, wordSecond_joinWord]
  rfl

/-- Settles O12: the byte loaded is the operand, wherever it stands. -/
theorem ldaImmediateLoadsItsOperand : Obligations.LdaImmediateLoadsItsOperand := by
  have hexec (d : Byte) (s : State) : ∃ t, exec (.ldaImmediate d) s = .next t ∧ Loaded s t d 1 2 :=
    ⟨_, exec_eq (.ldaImmediate d) s, loadAccumulator_loaded .immediate d false s⟩
  exact fun d s =>
    ⟨hexec d s, fun hop hd => step_loaded_of_standsAtPc (standsAtPc_of_byte rfl hop hd) (hexec d s.opcodeFetched)⟩

/-- Settles O13: the operand byte is the address. -/
theorem ldaZeropageLoadsFromTheZeroPage : Obligations.LdaZeropageLoadsFromTheZeroPage := by
  have hexec (d : Byte) (s : State) :
      ∃ t, exec (.ldaZeropage d) s = .next t ∧ Loaded s t (Memory.byteAt s.mem d.toNat) 1 3 := by
    rw [← zeropageAddr_toNat]
    exact exec_loaded_of_address rfl
  exact fun d s =>
    ⟨hexec d s, fun hop hd => step_loaded_of_standsAtPc (standsAtPc_of_byte rfl hop hd) (hexec d s.opcodeFetched)⟩

/-- Settles O14: the address is the operand byte plus `X` modulo 256. -/
theorem ldaZeropageXWrapsInsideTheZeroPage : Obligations.LdaZeropageXWrapsInsideTheZeroPage := by
  have hexec (d : Byte) (s : State) : ∃ t, exec (.ldaZeropageX d) s = .next t ∧
      Loaded s t (Memory.byteAt s.mem ((d.toNat + s.x.toNat) % 256)) 1 4 := by
    rw [← zeropageXAddr_toNat]
    exact exec_loaded_of_address rfl
  exact fun d s =>
    ⟨hexec d s, fun hop hd => step_loaded_of_standsAtPc (standsAtPc_of_byte rfl hop hd) (hexec d s.opcodeFetched)⟩

/-- Settles O15: the operand word is the address. -/
theorem ldaAbsoluteLoadsFromItsAddress : Obligations.LdaAbsoluteLoadsFromItsAddress := by
  have hexec (w : Addr) (s : State) :
      ∃ t, exec (.ldaAbsolute w) s = .next t ∧ Loaded s t (Memory.byteAt s.mem w.toNat) 2 4 :=
    exec_loaded_of_address rfl
  exact fun w s =>
    ⟨hexec w s, fun hop hw => step_loaded_of_standsAtPc (standsAtPc_of_word rfl hop hw) (hexec w s.opcodeFetched)⟩

/-- Settles O16: the address is the operand word plus `X` modulo 65536, and a crossed page costs nothing. -/
theorem ldaAbsoluteXAddsTheIndex : Obligations.LdaAbsoluteXAddsTheIndex := by
  have hexec (w : Addr) (s : State) : ∃ t, exec (.ldaAbsoluteX w) s = .next t ∧
      Loaded s t (Memory.byteAt s.mem ((w.toNat + s.x.toNat) % 65536)) 2 4 := by
    rw [← absoluteXAddr_toNat]
    exact exec_loaded_of_address rfl
  exact fun w s =>
    ⟨hexec w s, fun hop hw => step_loaded_of_standsAtPc (standsAtPc_of_word rfl hop hw) (hexec w s.opcodeFetched)⟩

/-- Settles O17: the address is the operand word plus `Y` modulo 65536, and a crossed page costs nothing. -/
theorem ldaAbsoluteYAddsTheIndex : Obligations.LdaAbsoluteYAddsTheIndex := by
  have hexec (w : Addr) (s : State) : ∃ t, exec (.ldaAbsoluteY w) s = .next t ∧
      Loaded s t (Memory.byteAt s.mem ((w.toNat + s.y.toNat) % 65536)) 2 4 := by
    rw [← absoluteYAddr_toNat]
    exact exec_loaded_of_address rfl
  exact fun w s =>
    ⟨hexec w s, fun hop hw => step_loaded_of_standsAtPc (standsAtPc_of_word rfl hop hw) (hexec w s.opcodeFetched)⟩

/-- Settles O18: the address is the word at the operand byte plus `X` modulo 256. -/
theorem ldaIndexedIndirectLoadsThroughThePointer : Obligations.LdaIndexedIndirectLoadsThroughThePointer := by
  have hexec (d : Byte) (s : State) : ∃ t, exec (.ldaIndexedIndirect d) s = .next t ∧
      Loaded s t (Memory.byteAt s.mem (wordAt s.mem ((d.toNat + s.x.toNat) % 256))) 1 6 := by
    rw [← indexedIndirectAddr_toNat]
    exact exec_loaded_of_address rfl
  exact fun d s =>
    ⟨hexec d s, fun hop hd => step_loaded_of_standsAtPc (standsAtPc_of_byte rfl hop hd) (hexec d s.opcodeFetched)⟩

/-- Settles O19: the address is the word at the operand byte, plus `Y` modulo 65536. -/
theorem ldaIndirectIndexedAddsTheIndexToThePointer : Obligations.LdaIndirectIndexedAddsTheIndexToThePointer := by
  have hexec (d : Byte) (s : State) : ∃ t, exec (.ldaIndirectIndexed d) s = .next t ∧
      Loaded s t (Memory.byteAt s.mem ((wordAt s.mem d.toNat + s.y.toNat) % 65536)) 1 5 := by
    rw [← indirectIndexedAddr_toNat]
    exact exec_loaded_of_address rfl
  exact fun d s =>
    ⟨hexec d s, fun hop hd => step_loaded_of_standsAtPc (standsAtPc_of_byte rfl hop hd) (hexec d s.opcodeFetched)⟩

end Sys2Proof.Machine
end

section
namespace Sys2Proof.Machine

/-! ### The load handler -/

/-- The handler given a mode outside its set (R130). -/
theorem ldaHandler_unsupported (a : Addr) (op : Byte) (m : Mode) (s : State) (h : supportedLda m = false) :
    ldaHandler a op m s = s.raiseModeFault a op := by
  simp [ldaHandler, h]

/-- Settles O20: a supported mode has an address, and the handler ends as every load does. -/
theorem theLoadHandlerKeepsItsContract : Obligations.TheLoadHandlerKeepsItsContract := by
  refine fun a op m s => ⟨fun h => ?_, ldaHandler_unsupported a op m s⟩
  obtain ⟨ea, hea⟩ := effectiveAddress_isSome m s h
  refine ⟨ea, hea, ?_⟩
  rw [ldaHandler_supported a op m s ea h hea]
  exact loadAccumulator_loaded m (s.mem.read ea) false s

theorem supportedLda_iff_mem (m : Mode) : supportedLda m = true ↔
    m ∈ [Mode.immediate, .zeropage, .zeropageX, .absolute, .absoluteX, .absoluteY, .indexedIndirect, .indirectIndexed] := by
  cases m <;> decide

/-- The costs of R121 as cases. -/
theorem ldaCost_of_supported (m : Mode) (h : supportedLda m = true) : ldaCost m =
    if m = .immediate then 2 else if m = .zeropage then 3 else if m = .indexedIndirect then 6
    else if m = .indirectIndexed then 5 else 4 := by
  revert h
  cases m <;> decide

/-- Settles O21: the two tables, and that a crossed page costs nothing more. -/
theorem theCostOfALoadIsItsModes : Obligations.TheCostOfALoadIsItsModes := by
  refine fun m crossed => ⟨supportedLda_iff_mem m, fun h => ?_⟩
  rw [loadCost_eq, ldaCost_of_supported m h]

/-- Settles O22: the fault as one record update, that the table holds supported modes only, and the status each of the
three cases of a step leaves. -/
theorem aModeFaultStopsTheRunAndIsUnreachable : Obligations.AModeFaultStopsTheRunAndIsUnreachable := by
  refine ⟨fun a op m s h => ?_, decodeOpcode_lda_supported, fun s => ?_⟩
  · rw [ldaHandler_unsupported a op m s h, raiseModeFault_eq]
    simp [Report.triple, ErrorKind.code]
  · obtain ⟨-, hstep⟩ | ⟨m, ea, -, -, hstep⟩ | ⟨-, hstep⟩ := step_cases s
    · exact ⟨_, hstep, fun h => by cases h⟩
    · exact ⟨_, hstep, id⟩
    · exact ⟨_, hstep, id⟩

end Sys2Proof.Machine
end

section
namespace Sys2Proof.Machine

/-! ### The resolver, mode by mode -/

@[simp] theorem advance_zero (s : State) : s.advance 0 = s :=
  congrArg (fun pc => { s with pc := pc }) (by simp : add16 s.pc (BitVec.ofNat 16 0) = s.pc)

/-- Settles O24: no address, and `PC` is advanced by nothing. -/
theorem resolveWithoutOperandHasNoAddress : Obligations.ResolveWithoutOperandHasNoAddress :=
  fun s => ⟨congrArg (Prod.mk none) (advance_zero s), congrArg (Prod.mk none) (advance_zero s)⟩

theorem width_eq_two_of_absolute {m : Mode} (h : m ∈ [Mode.absolute, .absoluteX, .absoluteY]) : m.width = 2 := by
  revert m
  decide

/-- Settles O26: the three addresses as numbers, and `PC` past the operand word. -/
theorem resolveAbsoluteModesAddTheIndexToTheWord : Obligations.ResolveAbsoluteModesAddTheIndexToTheWord := by
  intro s
  refine ⟨⟨_, rfl, operandWord_toNat s⟩, ⟨_, rfl, ?_⟩, ⟨_, rfl, ?_⟩, fun m hm => ⟨?_, resolve_frame m s⟩⟩
  · rw [absoluteXAddr_toNat, operandWord_toNat]
  · rw [absoluteYAddr_toNat, operandWord_toNat]
  · rw [resolve_pc_toNat, width_eq_two_of_absolute hm]

/-- Settles O27: the three pointers as numbers, and `PC` past the operand. -/
theorem resolveIndirectModesReadTheNextAddress : Obligations.ResolveIndirectModesReadTheNextAddress := by
  intro s
  refine ⟨⟨_, rfl, ?_⟩, ⟨_, rfl, indexedIndirectAddr_toNat (operandByte s) s⟩,
    ⟨_, rfl, indirectIndexedAddr_toNat (operandByte s) s⟩, resolve_pc_toNat .indirect s,
    resolve_pc_toNat .indexedIndirect s, resolve_pc_toNat .indirectIndexed s⟩
  rw [indirectAddr_toNat, operandWord_toNat]

/-- Settles O28: the offset is added to the address after the operand, which has wrapped already. -/
theorem resolveRelativeAddsTheSignedOffset : Obligations.ResolveRelativeAddsTheSignedOffset := by
  intro s
  refine ⟨_, rfl, ?_, resolve_pc_toNat .relative s, resolve_frame .relative s⟩
  have hpc : (add16 s.pc 1).toNat = (s.pc.toNat + 1) % 65536 := advance_pc_toNat s 1
  rw [relativeAddr_toNat, operandByte_eq, hpc]
  omega

theorem width_eq_cases (m : Mode) : m.width =
    if m ∈ [Mode.implicit, .accumulator] then 0
    else if m ∈ [Mode.absolute, .absoluteX, .absoluteY, .indirect] then 2 else 1 := by
  cases m <;> rfl

/-- Settles O29: the operand width of each mode, and that the resolver moves `PC` by it. -/
theorem resolveAdvancesPcByTheOperandWidth : Obligations.ResolveAdvancesPcByTheOperandWidth := by
  intro m s
  rw [resolve_pc_toNat, width_eq_cases]

theorem effectiveAddress_eq_none_iff (m : Mode) (s : State) :
    effectiveAddress m s = none ↔ m = .implicit ∨ m = .accumulator := by
  cases m <;> simp [effectiveAddress]

/-- The address depends on nothing but `PC`, `X`, `Y` and memory (R90). -/
theorem effectiveAddress_eq_of_eq_inputs {s u : State} (m : Mode) (hpc : u.pc = s.pc) (hx : u.x = s.x) (hy : u.y = s.y)
    (hmem : u.mem = s.mem) : effectiveAddress m u = effectiveAddress m s := by
  cases m <;>
    simp only [effectiveAddress, operandByte, operandWord, zeropageXAddr, zeropageYAddr, absoluteXAddr, absoluteYAddr,
      indirectAddr, indexedIndirectAddr, indirectIndexedAddr, indirectBase, hpc, hx, hy, hmem]

/-- Settles O30: the frame, the modes without an address, and that equal inputs give equal answers. -/
theorem resolveReadsPcXYAndMemoryAndWritesPc : Obligations.ResolveReadsPcXYAndMemoryAndWritesPc := by
  refine fun m s u => ⟨resolve_frame m s, resolve_pc_toNat m s, effectiveAddress_eq_none_iff m s,
    fun hpc hx hy hmem => ⟨effectiveAddress_eq_of_eq_inputs m hpc hx hy hmem, ?_⟩⟩
  rw [resolve_state, resolve_state, advance_pc, advance_pc, hpc]

/-! ### Which index register a mode selects -/

/-- A state in which every index shows: the pointer at address 0 differs from the one at address 2. -/
def indexWitness : State := { State.reset with mem := [(0, 1)] }

/-- The modes that select `X` are those whose address changes with it (R107). -/
theorem effectiveAddress_indep_x_iff (m : Mode) :
    (∀ (s : State) (v : Byte), effectiveAddress m { s with x := v } = effectiveAddress m s) ↔
      m ∉ [Mode.zeropageX, .absoluteX, .indexedIndirect] := by
  constructor
  · intro h hm
    have hindep := h indexWitness 2
    simp only [List.mem_cons, List.not_mem_nil, or_false] at hm
    obtain rfl | rfl | rfl := hm
    · exact absurd hindep (by decide)
    · exact absurd hindep (by decide)
    · exact absurd hindep (by decide)
  · intro hm s v
    cases m with
    | zeropageX | absoluteX | indexedIndirect => exact absurd (by decide) hm
    | _ => rfl

/-- The modes that select `Y` are those whose address changes with it (R107). -/
theorem effectiveAddress_indep_y_iff (m : Mode) :
    (∀ (s : State) (v : Byte), effectiveAddress m { s with y := v } = effectiveAddress m s) ↔
      m ∉ [Mode.zeropageY, .absoluteY, .indirectIndexed] := by
  constructor
  · intro h hm
    have hindep := h indexWitness 2
    simp only [List.mem_cons, List.not_mem_nil, or_false] at hm
    obtain rfl | rfl | rfl := hm
    · exact absurd hindep (by decide)
    · exact absurd hindep (by decide)
    · exact absurd hindep (by decide)
  · intro hm s v
    cases m with
    | zeropageY | absoluteY | indirectIndexed => exact absurd (by decide) hm
    | _ => rfl

/-- Settles O31: the two index registers mode by mode, and the index additions as numbers. -/
theorem theModeSelectsTheIndexRegister : Obligations.TheModeSelectsTheIndexRegister :=
  ⟨effectiveAddress_indep_x_iff, effectiveAddress_indep_y_iff,
    fun m _ _ _ => effectiveAddress_eq_of_eq_inputs m rfl rfl rfl rfl,
    fun s d w => ⟨zeropageXAddr_toNat d s, zeropageYAddr_toNat d s, absoluteXAddr_toNat w s, absoluteYAddr_toNat w s,
      indexedIndirectAddr_toNat d s, indirectIndexedAddr_toNat d s⟩⟩

end Sys2Proof.Machine
end

section
namespace Sys2Proof.Machine

/-! ### `UpdateCV` and the packed byte -/

theorem sumCV_lt (a m : Byte) (cin : Bool) : sumCV a m cin < 512 := by
  have ha := a.isLt
  have hm := m.isLt
  have hc := cin.toNat_lt
  unfold sumCV
  omega

theorem resultCV_toNat (a m : Byte) (cin : Bool) : (resultCV a m cin).toNat = sumCV a m cin % 256 := by
  rw [resultCV, BitVec.toNat_ofNat, Nat.mod_mod]

/-- The carry is the ninth bit of the sum (R113). -/
theorem updateCV_c_toNat (s : State) (a m : Byte) (cin : Bool) :
    (s.updateCV a m cin).2.flags.c.toNat = sumCV a m cin / 256 := by
  have hlt := sumCV_lt a m cin
  show ((sumCV a m cin).testBit 8).toNat = _
  rw [Nat.toNat_testBit]
  omega

/-- Overflow by the sign bits: the operands' signs agree and the result's differs (R113). -/
theorem updateCV_v_iff (s : State) (a m : Byte) (cin : Bool) :
    (s.updateCV a m cin).2.flags.v = true ↔
      (128 ≤ a.toNat ↔ 128 ≤ m.toNat) ∧ ¬ (128 ≤ sumCV a m cin % 256 ↔ 128 ≤ a.toNat) := by
  show (a.getLsbD 7 == m.getLsbD 7 && (resultCV a m cin).getLsbD 7 != a.getLsbD 7) = true ↔ _
  rw [← resultCV_toNat, ← getLsbD_seven_iff, ← getLsbD_seven_iff, ← getLsbD_seven_iff, Bool.and_eq_true, beq_iff_eq,
    bne_iff_ne, ← Bool.eq_iff_iff, ← Bool.eq_iff_iff]

/-- Settles O35: sum and carry as quotient and remainder; overflow by the sign bits is the signed sum out of range. -/
theorem updateCVIsTheNineBitSum : Obligations.UpdateCVIsTheNineBitSum := by
  refine fun s a m cin => ⟨?_, ?_, rfl⟩
  · rw [updateCV_result, resultCV_toNat, updateCV_c_toNat, Nat.mod_add_div, sumCV]
  · have ha := a.isLt
    have hm := m.isLt
    have hc := cin.toNat_lt
    rw [updateCV_v_iff, sumCV, BitVec.toInt_eq_toNat_cond, BitVec.toInt_eq_toNat_cond]
    split <;> split <;> omega

/-- The layout of the packed byte, and that unpacking it gives the flags back (R33). -/
theorem pack_toNat_and_unpack_pack : ∀ f : Flags, (pack f).toNat =
    f.n.toNat * 128 + f.v.toNat * 64 + 32 + f.b.toNat * 16 + f.d.toNat * 8 + f.i.toNat * 4 + f.z.toNat * 2 + f.c.toNat ∧
    unpack (pack f) = f := by
  rintro ⟨c, z, i, d, b, v, n⟩
  revert c z i d b v n
  decide

/-- Packing sets the bit that reads 1 and no other (R33). -/
theorem pack_unpack (p : Byte) : pack (unpack p) = p ||| 0x20 := by
  revert p
  decide

/-- Settles O36: both laws are finite, and checked for every tuple of flags and every byte. -/
theorem packAndUnpackAgree : Obligations.PackAndUnpackAgree := ⟨pack_toNat_and_unpack_pack, pack_unpack⟩

end Sys2Proof.Machine
end

section
namespace Sys2Proof.Machine

/-! ### Words in memory, and the canonical form -/

theorem succ_ne_self (a : Addr) : a + 1 ≠ a := by
  bv_omega

theorem Memory.read_writeWord_self (m : Memory) (a w : Addr) : (m.writeWord a w).read a = wordFirst w := by
  rw [Memory.writeWord, Memory.read_write, add16_eq, if_neg (succ_ne_self a).symm, Memory.read_write, if_pos rfl]

theorem Memory.read_writeWord_succ (m : Memory) (a w : Addr) : (m.writeWord a w).read (a + 1) = wordSecond w := by
  rw [Memory.writeWord, Memory.read_write, add16_eq, if_pos rfl]

theorem Memory.read_writeWord_of_ne {m : Memory} {a w b : Addr} (h : b ≠ a) (h1 : b ≠ a + 1) :
    (m.writeWord a w).read b = m.read b := by
  rw [Memory.writeWord, Memory.read_write, add16_eq, if_neg h1, Memory.read_write, if_neg h]

theorem Memory.readWord_eq (m : Memory) (a : Addr) : m.readWord a = joinWord (m.read a) (m.read (a + 1)) := by
  rw [Memory.readWord, add16_eq]

/-- Settles O39: the word read as a number, the two cells a word write stores, and the others. -/
theorem wordsAreTwoBytesLowByteFirst : Obligations.WordsAreTwoBytesLowByteFirst := by
  refine fun m a w => ⟨?_, ?_, ?_, fun b => Memory.read_writeWord_of_ne⟩
  · rw [Memory.readWord_eq, joinWord_toNat]
  · rw [Memory.read_writeWord_self]
    exact lowByte_toNat w
  · rw [Memory.read_writeWord_succ]
    exact highByte_toNat w

/-- Settles O40: the two bytes read are the two stored. -/
theorem aWordWrittenIsReadBack : Obligations.AWordWrittenIsReadBack := by
  intro m a w
  rw [Memory.readWord_eq, Memory.read_writeWord_self, Memory.read_writeWord_succ, joinWord_first_second]

/-- In a list with rising addresses an entry is the byte read at its address. -/
theorem Memory.byteAt_of_mem {m : Memory} {c : Host.Cell} (h : m.Pairwise (fun c d => c.1 < d.1)) (hc : c ∈ m) :
    Memory.byteAt m c.1 = c.2 := by
  induction m with
  | nil => cases hc
  | cons d m ih =>
    obtain ⟨hlt, hm⟩ := List.pairwise_cons.1 h
    obtain rfl | hc := List.mem_cons.1 hc
    · exact if_pos rfl
    · rw [Memory.byteAt, if_neg (hlt c hc).ne, ih hm hc]

/-- A byte read that is not the blank one is an entry. -/
theorem Memory.mem_of_byteAt_ne_blank {m : Memory} {n : Nat} (h : Memory.byteAt m n ≠ Config.blankByte) :
    (n, Memory.byteAt m n) ∈ m := by
  induction m with
  | nil => exact absurd rfl h
  | cons d m ih =>
    by_cases hd : d.1 = n
    · rw [Memory.byteAt, if_pos hd, ← hd]
      exact List.mem_cons_self
    · rw [Memory.byteAt, if_neg hd] at h ⊢
      exact List.mem_cons_of_mem d (ih h)

/-- The entries of a canonical memory are the cells of the address space that do not read blank. -/
theorem Memory.mem_iff_of_wf {m : Memory} (h : m.wf) (c : Host.Cell) :
    c ∈ m ↔ c.1 < Config.memSize ∧ c.2 ≠ Config.blankByte ∧ Memory.byteAt m c.1 = c.2 := by
  constructor
  · intro hc
    obtain ⟨hlt, hne⟩ := h.2 c hc
    exact ⟨hlt, hne, Memory.byteAt_of_mem h.1 hc⟩
  · rintro ⟨-, hne, hread⟩
    rw [← hread] at hne
    simpa only [hread] using Memory.mem_of_byteAt_ne_blank hne

/-- Settles O41: alike reads give the same entries, and a list in rising order is determined by its entries. -/
theorem canonicalMemoriesThatReadAlikeAreEqual : Obligations.CanonicalMemoriesThatReadAlikeAreEqual := by
  intro m k hm hk hread
  have : Std.Irrefl (fun c d : Host.Cell => c.1 < d.1) := ⟨fun c => Nat.lt_irrefl c.1⟩
  have : Std.Antisymm (fun c d : Host.Cell => c.1 < d.1) := ⟨fun c d h h' => absurd h h'.asymm⟩
  refine List.Pairwise.eq_of_mem_iff hm.1 hk.1 fun c => ?_
  rw [Memory.mem_iff_of_wf hm, Memory.mem_iff_of_wf hk]
  refine and_congr_right fun (hlt : c.1 < 2 ^ 16) => ?_
  have hc : Memory.byteAt m c.1 = Memory.byteAt k c.1 := by
    simpa only [Memory.read, BitVec.toNat_ofNat, Nat.mod_eq_of_lt hlt] using hread (BitVec.ofNat 16 c.1)
  rw [hc]

end Sys2Proof.Machine
end

section
namespace Sys2Proof.Machine

/-! ### What a step leaves, field by field -/

/-- Every step completes (R140). -/
theorem step_completes (s : State) : ∃ t, step s = .next t :=
  ⟨byteStep s, stepIsTheByteLevelStep s⟩

/-- The next state is one of three, each a shared operation on the state after the opcode fetch. -/
theorem step_next_cases {s t : State} (h : step s = .next t) :
    (decodeOpcode s.opcode = .brk ∧ t = halt s.opcodeFetched) ∨
    (∃ m v, decodeOpcode s.opcode = .lda m ∧ t = loadAccumulator m v false s.opcodeFetched) ∨
    (decodeOpcode s.opcode = .invalid s.opcode ∧ t = s.opcodeFetched.invalidOpcode s.pc s.opcode) := by
  obtain ⟨hop, hstep⟩ | ⟨m, ea, hop, -, hstep⟩ | ⟨hop, hstep⟩ := step_cases s <;> cases h.symm.trans hstep
  · exact .inl ⟨hop, rfl⟩
  · exact .inr (.inl ⟨m, _, hop, rfl⟩)
  · exact .inr (.inr ⟨hop, rfl⟩)

/-- What no step writes, by the writers table of `10_state.md` R42. -/
structure Kept (s t : State) : Prop where
  memory : t.mem = s.mem
  indexX : t.x = s.x
  indexY : t.y = s.y
  stack : t.sp = s.sp
  carry : t.flags.c = s.flags.c
  interrupt : t.flags.i = s.flags.i
  decimal : t.flags.d = s.flags.d
  brk : t.flags.b = s.flags.b
  overflow : t.flags.v = s.flags.v

theorem Kept.refl (s : State) : Kept s s := ⟨rfl, rfl, rfl, rfl, rfl, rfl, rfl, rfl, rfl⟩

theorem Kept.trans {s t u : State} (h : Kept s t) (h' : Kept t u) : Kept s u where
  memory := h'.memory.trans h.memory
  indexX := h'.indexX.trans h.indexX
  indexY := h'.indexY.trans h.indexY
  stack := h'.stack.trans h.stack
  carry := h'.carry.trans h.carry
  interrupt := h'.interrupt.trans h.interrupt
  decimal := h'.decimal.trans h.decimal
  brk := h'.brk.trans h.brk
  overflow := h'.overflow.trans h.overflow

theorem step_kept {s t : State} (h : step s = .next t) : Kept s t := by
  obtain ⟨-, rfl⟩ | ⟨m, v, -, rfl⟩ | ⟨-, rfl⟩ := step_next_cases h
  · exact ⟨rfl, rfl, rfl, rfl, rfl, rfl, rfl, rfl, rfl⟩
  · exact ⟨rfl, rfl, rfl, rfl, rfl, rfl, rfl, rfl, rfl⟩
  · exact ⟨rfl, rfl, rfl, rfl, rfl, rfl, rfl, rfl, rfl⟩

/-- Each step performs one debit, of its opcode's cost (R148). -/
theorem step_cyc {s t : State} (h : step s = .next t) : t.cyc = satsub s.cyc (stepCost s.opcode) := by
  obtain ⟨hop, rfl⟩ | ⟨m, v, hop, rfl⟩ | ⟨hop, rfl⟩ := step_next_cases h
  · simp only [stepCost, hop]
    rfl
  · simp only [stepCost, hop, ← loadCost_eq m false]
    rfl
  · simp only [stepCost, hop]
    rfl

theorem step_cyc_toInt {s t : State} (h : step s = .next t) :
    t.cyc.toInt = max (s.cyc.toInt - (stepCost s.opcode : Int)) 0 := by
  rw [step_cyc h, satsub_toInt]

/-- Each step moves `PC` by the length of its instruction (R151). -/
theorem step_pc_toNat {s t : State} (h : step s = .next t) :
    t.pc.toNat = (s.pc.toNat + opcodeLength s.opcode) % 65536 := by
  obtain ⟨hop, rfl⟩ | ⟨m, v, hop, rfl⟩ | ⟨hop, rfl⟩ := step_next_cases h
  · simp only [opcodeLength, hop, halt_eq]
    exact opcodeFetched_pc_toNat s
  · simp only [opcodeLength, hop]
    exact (loadAccumulator_loaded m v false _).fromFetch.counter
  · simp only [opcodeLength, hop]
    exact opcodeFetched_pc_toNat s

/-- Only the halt opcode sets `STATUS` (R150). -/
theorem step_status {s t : State} (h : step s = .next t) :
    t.status = if s.opcode = 0x00 then .halted else s.status := by
  have hne {d : DecodedOpcode} (hop : decodeOpcode s.opcode = d) (hd : d ≠ .brk) : s.opcode ≠ 0x00 := by
    intro h0
    rw [h0] at hop
    exact hd hop.symm
  obtain ⟨hop, rfl⟩ | ⟨m, v, hop, rfl⟩ | ⟨hop, rfl⟩ := step_next_cases h
  · rw [if_pos (eq_of_decodeOpcode_brk hop)]
    rfl
  · rw [if_neg (hne hop (by simp))]
    rfl
  · rw [if_neg (hne hop (by simp))]
    rfl

/-- The records a step appends: the one of an invalid opcode (`60_exceptions.md` R161). -/
def State.newReports (s : State) : List Report :=
  if decodeOpcode s.opcode = .invalid s.opcode then [{ kind := .invalidOpcode, addr := s.pc, op := s.opcode }] else []

theorem step_reports {s t : State} (h : step s = .next t) : t.reports = s.reports ++ s.newReports := by
  obtain ⟨hop, rfl⟩ | ⟨m, v, hop, rfl⟩ | ⟨hop, rfl⟩ := step_next_cases h
  · rw [State.newReports, if_neg (by simp [hop]), List.append_nil]
    rfl
  · rw [State.newReports, if_neg (by simp [hop]), List.append_nil]
    rfl
  · rw [State.newReports, if_pos hop]
    rfl

/-- Only a load writes `A` and flags (R42). -/
theorem step_keeps_a_and_flags {s t : State} (h : step s = .next t) (hop : ∀ m, decodeOpcode s.opcode ≠ .lda m) :
    t.a = s.a ∧ t.flags = s.flags := by
  obtain ⟨-, rfl⟩ | ⟨m, v, hm, rfl⟩ | ⟨-, rfl⟩ := step_next_cases h
  · exact ⟨rfl, rfl⟩
  · exact absurd hm (hop m)
  · exact ⟨rfl, rfl⟩

/-! ### The invariant -/

/-- A record that names an invalid opcode byte and the address where the byte stands (`60_exceptions.md` R161). -/
def Report.Precise (mem : Memory) (r : Report) : Prop :=
  r.kind = .invalidOpcode ∧ decodeOpcode r.op = .invalid r.op ∧ mem.read r.addr = r.op

theorem precise_of_mem_newReports {s : State} {r : Report} (h : r ∈ s.newReports) : r.Precise s.mem := by
  unfold State.newReports at h
  split at h
  case isTrue hop =>
    obtain rfl := List.mem_singleton.1 h
    exact ⟨rfl, hop, rfl⟩
  case isFalse => cases h

/-- Settles O42: each part of the invariant from what a step does to that part. -/
theorem everyStepKeepsTheInvariant : Obligations.EveryStepKeepsTheInvariant := by
  intro s t hinv h
  have hmem := (step_kept h).memory
  refine ⟨?_, ?_, fun r hr => ?_, fun hgone => ?_⟩
  · rw [hmem]
    exact hinv.memory
  · rw [step_cyc_toInt h]
    exact le_max_right _ 0
  · rw [hmem]
    rw [step_reports h, List.mem_append] at hr
    exact hr.elim (hinv.precise r) precise_of_mem_newReports
  · rw [State.goneWrong, step_status h] at hgone
    split at hgone
    · cases hgone
    · exact hinv.running hgone

/-- Settles O43: there are no records at reset. -/
theorem resetMeetsTheInvariant : Obligations.ResetMeetsTheInvariant :=
  ⟨Memory.wf_reset, by decide, fun _ hr => (List.not_mem_nil hr).elim, by simp [State.goneWrong, State.reset]⟩

/-! ### The writers table, costs and lengths -/

/-- Settles O44: what every step keeps, and that only a load writes `A` and flags. -/
theorem aStepWritesOnlyWhatTheTableNames : Obligations.AStepWritesOnlyWhatTheTableNames := by
  intro s
  obtain ⟨t, h⟩ := step_completes s
  obtain ⟨hmem, hx, hy, hsp, hc, hi, hd, hb, hv⟩ := step_kept h
  exact ⟨t, h, hmem, hx, hy, hsp, hc, hi, hd, hb, hv, fun a => by rw [hmem], step_keeps_a_and_flags h⟩

/-- The cost table of `70_reset_and_hazards.md` R196, written out. -/
theorem stepCost_eq_cases (op : Byte) : stepCost op =
    if op = 0x00 then 7 else if op = 0xA9 then 2 else if op = 0xA5 then 3
    else if op ∈ ([0xB5, 0xAD, 0xBD, 0xB9] : List Byte) then 4
    else if op = 0xA1 then 6 else if op = 0xB1 then 5 else 1 := by
  revert op
  decide

/-- Settles O48: the debit of a step, and the cost table for every opcode byte. -/
theorem aStepDebitsTheCostOfItsOpcode : Obligations.AStepDebitsTheCostOfItsOpcode := by
  intro s
  obtain ⟨t, h⟩ := step_completes s
  exact ⟨t, h, step_cyc_toInt h, stepCost_eq_cases s.opcode⟩

/-- The lengths of `30_encoding.md` R78, written out. -/
theorem opcodeLength_eq_cases (op : Byte) : opcodeLength op =
    if op ∈ ([0xA9, 0xA5, 0xB5, 0xA1, 0xB1] : List Byte) then 2
    else if op ∈ ([0xAD, 0xBD, 0xB9] : List Byte) then 3 else 1 := by
  revert op
  decide

/-- Settles O49: the move of `PC`, and the length table for every opcode byte. -/
theorem aStepMovesPcByTheInstructionsLength : Obligations.AStepMovesPcByTheInstructionsLength := by
  intro s
  obtain ⟨t, h⟩ := step_completes s
  exact ⟨t, h, step_pc_toNat h, opcodeLength_eq_cases s.opcode⟩

/-- The appended records as triples, by the nine opcodes (R76, R161). -/
theorem newReports_map_triple (s : State) : s.newReports.map Report.triple =
    if s.opcode ∈ ([0x00, 0xA1, 0xA5, 0xA9, 0xAD, 0xB1, 0xB5, 0xB9, 0xBD] : List Byte) then []
    else [(1, s.pc, s.opcode)] := by
  simp only [State.newReports, decodeOpcode_eq_invalid_iff, ite_not, apply_ite (List.map Report.triple)]
  rfl

/-- Settles O50: the status a step leaves and the record it appends. -/
theorem aStepSetsStatusAndReportsByItsOpcode : Obligations.AStepSetsStatusAndReportsByItsOpcode := by
  intro s
  obtain ⟨t, h⟩ := step_completes s
  refine ⟨t, h, step_status h, ?_⟩
  rw [step_reports h, List.map_append, newReports_map_triple]

end Sys2Proof.Machine
end

section
namespace Sys2Proof.Machine

/-! ### What a step reads -/

/-- Two states that agree on all a step from the first one reads: `PC`, `X`, `Y` and the cells of `stepReads`. -/
structure ReadsAlike (s u : State) : Prop where
  counter : u.pc = s.pc
  indexX : u.x = s.x
  indexY : u.y = s.y
  cells : ∀ a ∈ stepReads s, u.mem.read a = s.mem.read a

theorem ReadsAlike.refl (s : State) : ReadsAlike s s := ⟨rfl, rfl, rfl, fun _ _ => rfl⟩

theorem pc_mem_stepReads (s : State) : s.pc ∈ stepReads s := by
  unfold stepReads
  split <;> simp

theorem stepReads_of_lda {s : State} {m : Mode} (h : decodeOpcode s.opcode = .lda m) :
    stepReads s = s.pc :: resolverReads m s.opcodeFetched ++ (effectiveAddress m s.opcodeFetched).toList := by
  rw [State.opcode] at h
  simp only [stepReads, h]

theorem ReadsAlike.opcode_eq {s u : State} (h : ReadsAlike s u) : u.opcode = s.opcode := by
  rw [State.opcode, h.counter]
  exact h.cells s.pc (pc_mem_stepReads s)

/-- The resolver reads its cells alike, so it answers the same address. -/
theorem ReadsAlike.effectiveAddress_eq {s u : State} {m : Mode} (h : ReadsAlike s u)
    (hop : decodeOpcode s.opcode = .lda m) :
    effectiveAddress m u.opcodeFetched = effectiveAddress m s.opcodeFetched := by
  have hcells := h.cells
  simp only [stepReads_of_lda hop, List.cons_append, List.forall_mem_cons, List.forall_mem_append] at hcells
  obtain ⟨-, hresolver, -⟩ := hcells
  calc effectiveAddress m u.opcodeFetched
      = effectiveAddress m { s.opcodeFetched with mem := u.mem } :=
        effectiveAddress_eq_of_eq_inputs m (congrArg (add16 · 1) h.counter) h.indexX h.indexY rfl
    _ = effectiveAddress m s.opcodeFetched := effectiveAddress_congr hresolver

/-- The data byte is read alike. -/
theorem ReadsAlike.data_eq {s u : State} {m : Mode} {ea : Addr} (h : ReadsAlike s u)
    (hop : decodeOpcode s.opcode = .lda m) (hea : effectiveAddress m s.opcodeFetched = some ea) :
    u.mem.read ea = s.mem.read ea :=
  h.cells ea (by simp [stepReads_of_lda hop, hea])

/-- What a step does is settled by what it reads: all states alike take the same case, with the same byte. -/
theorem step_cases_of_readsAlike (s : State) :
    (decodeOpcode s.opcode = .brk ∧ ∀ u, ReadsAlike s u → step u = .next (halt u.opcodeFetched)) ∨
    (∃ m v, decodeOpcode s.opcode = .lda m ∧
      ∀ u, ReadsAlike s u → step u = .next (loadAccumulator m v false u.opcodeFetched)) ∨
    (decodeOpcode s.opcode = .invalid s.opcode ∧
      ∀ u, ReadsAlike s u → step u = .next (u.opcodeFetched.invalidOpcode s.pc s.opcode)) := by
  obtain ⟨hop, -⟩ | ⟨m, ea, hop, hea, -⟩ | ⟨hop, -⟩ := step_cases s
  · refine .inl ⟨hop, fun u hu => step_of_brk u ?_⟩
    rw [hu.opcode_eq, hop]
  · refine .inr (.inl ⟨m, s.mem.read ea, hop, fun u hu => ?_⟩)
    obtain ⟨eaU, heaU, hstep⟩ := step_of_lda u m (by rw [hu.opcode_eq, hop])
    obtain rfl : ea = eaU := Option.some.inj (hea.symm.trans ((hu.effectiveAddress_eq hop).symm.trans heaU))
    rw [hstep, hu.data_eq hop hea]
  · refine .inr (.inr ⟨hop, fun u hu => ?_⟩)
    rw [step_of_invalid u s.opcode (by rw [hu.opcode_eq, hop]), hu.opcode_eq, hu.counter]

theorem resolverReads_length_le (m : Mode) (s : State) : (resolverReads m s).length ≤ 4 := by
  rw [resolverReads_length]
  split_ifs <;> omega

/-- The opcode, at most four cells of the resolver, and the data byte (R140). -/
theorem stepReads_length_le (s : State) : (stepReads s).length ≤ 6 := by
  unfold stepReads
  split
  · simp
  · simp
  · rename_i m _
    have hresolver := resolverReads_length_le m s.opcodeFetched
    have hdata : (effectiveAddress m s.opcodeFetched).toList.length ≤ 1 := by
      cases effectiveAddress m s.opcodeFetched <;> simp
    rw [List.length_append, List.length_cons]
    omega

/-- Settles O33: a memory that agrees on the cells read gives a state alike. -/
theorem aStepReadsAtMostSixCells : Obligations.AStepReadsAtMostSixCells := by
  intro s other
  refine ⟨stepReads_length_le s, ?_⟩
  obtain ⟨-, hstep⟩ | ⟨m, v, -, hstep⟩ | ⟨-, hstep⟩ := step_cases_of_readsAlike s
  · exact ⟨_, hstep s (.refl s), fun hcells => hstep _ ⟨rfl, rfl, rfl, hcells⟩⟩
  · exact ⟨_, hstep s (.refl s), fun hcells => hstep _ ⟨rfl, rfl, rfl, hcells⟩⟩
  · exact ⟨_, hstep s (.refl s), fun hcells => hstep _ ⟨rfl, rfl, rfl, hcells⟩⟩

/-- Settles O45: a state with another interrupt flag is read alike. -/
theorem theInterruptFlagChangesNoBehaviour : Obligations.TheInterruptFlagChangesNoBehaviour := by
  intro s b
  have halike : ReadsAlike s { s with flags := { s.flags with i := b } } := ⟨rfl, rfl, rfl, fun _ _ => rfl⟩
  obtain ⟨-, hstep⟩ | ⟨m, v, -, hstep⟩ | ⟨-, hstep⟩ := step_cases_of_readsAlike s
  · exact ⟨_, hstep s (.refl s), hstep _ halike⟩
  · exact ⟨_, hstep s (.refl s), hstep _ halike⟩
  · exact ⟨_, hstep s (.refl s), hstep _ halike⟩

/-- Settles O46: a state with other values of these registers is read alike, and only a load writes `A`, `Z` and `N`. -/
theorem noStepReadsTheAccumulatorStackPointerOrFlags :
    Obligations.NoStepReadsTheAccumulatorStackPointerOrFlags := by
  intro s a sp f
  have halike : ReadsAlike s { s with a := a, sp := sp, flags := f } := ⟨rfl, rfl, rfl, fun _ _ => rfl⟩
  obtain ⟨hop, hstep⟩ | ⟨m, v, hop, hstep⟩ | ⟨hop, hstep⟩ := step_cases_of_readsAlike s
  · refine ⟨_, _, hstep s (.refl s), hstep _ halike, rfl, rfl, fun m hm => ?_, fun _ => ⟨rfl, rfl⟩⟩
    cases hop.symm.trans hm
  · exact ⟨_, _, hstep s (.refl s), hstep _ halike, rfl, rfl, fun _ _ => ⟨rfl, rfl⟩, fun hno => absurd hop (hno m)⟩
  · refine ⟨_, _, hstep s (.refl s), hstep _ halike, rfl, rfl, fun m hm => ?_, fun _ => ⟨rfl, rfl⟩⟩
    cases hop.symm.trans hm

/-- Settles O47: a state with another `STATUS` and other `REPORTS` is read alike; the halt sets the one, an invalid
opcode appends to the other. -/
theorem aStepReadsNeitherStatusNorReports : Obligations.AStepReadsNeitherStatusNorReports := by
  intro s
  have halike (st : Status) (rs : List Report) : ReadsAlike s { s with status := st, reports := rs } :=
    ⟨rfl, rfl, rfl, fun _ _ => rfl⟩
  obtain ⟨-, hstep⟩ | ⟨m, v, -, hstep⟩ | ⟨-, hstep⟩ := step_cases_of_readsAlike s
  · refine ⟨_, [], some .halted, hstep s (.refl s), fun st rs => (hstep _ (halike st rs)).trans ?_⟩
    rw [List.append_nil]
    rfl
  · refine ⟨_, [], none, hstep s (.refl s), fun st rs => (hstep _ (halike st rs)).trans ?_⟩
    rw [List.append_nil]
    rfl
  · exact ⟨_, [{ kind := .invalidOpcode, addr := s.pc, op := s.opcode }], none, hstep s (.refl s),
      fun st rs => hstep _ (halike st rs)⟩

end Sys2Proof.Machine
end

section
namespace Sys2Proof.Machine

/-! ### The loop of a run -/

theorem mayFetch_iff (s : State) : s.mayFetch = true ↔ s.status = .running ∧ 0 < s.cyc.toInt := by
  simp [State.mayFetch]

theorem runLoop_of_not_mayFetch (n : Nat) {s : State} (h : s.mayFetch = false) : runLoop n s = .next s := by
  cases n <;> simp [runLoop, h]

theorem runLoop_succ_of_mayFetch (n : Nat) {s t : State} (h : s.mayFetch = true) (hstep : step s = .next t) :
    runLoop (n + 1) s = runLoop n t := by
  simp [runLoop, h, hstep]

/-- No opcode is free (R148, R149). -/
theorem stepCost_pos (op : Byte) : 0 < stepCost op := by
  rw [stepCost_eq_cases]
  split_ifs <;> decide

/-- The counter bounds the loop: every turn lowers it, so `n` turns are enough from a counter of at most `n` (R149). -/
theorem runLoop_ends (n : Nat) (s : State) (h : s.cyc.toInt ≤ n) :
    ∃ k u, GuardedSteps k s u ∧ u.mayFetch = false ∧ k ≤ n ∧ runLoop n s = .next u := by
  induction n generalizing s with
  | zero =>
    have hguard : s.mayFetch = false := by
      rw [← Bool.not_eq_true, mayFetch_iff]
      omega
    exact ⟨0, s, .done s, hguard, le_rfl, rfl⟩
  | succ n ih =>
    cases hguard : s.mayFetch with
    | false => exact ⟨0, s, .done s, hguard, Nat.zero_le _, runLoop_of_not_mayFetch _ hguard⟩
    | true =>
      obtain ⟨t, ht⟩ := step_completes s
      have hcyc : t.cyc.toInt ≤ n := by
        have hcost := stepCost_pos s.opcode
        rw [step_cyc_toInt ht]
        omega
      obtain ⟨k, u, hsteps, hu, hk, hloop⟩ := ih t hcyc
      exact ⟨k + 1, u, .turn k s t u hguard ht hsteps, hu, by omega,
        (runLoop_succ_of_mayFetch n hguard ht).trans hloop⟩

/-- A run begins with the budget, a negative one counting as zero (R145, R146). -/
theorem beginRun_cyc_toInt (s : State) (budget : Cycles) : (s.beginRun budget).cyc.toInt = max budget.toInt 0 := by
  have hlt := cycles_lt budget
  exact toInt_ofInt_of_nonneg _ (by omega) (by omega)

theorem run_of_runLoop {budget : Cycles} {s u : State}
    (h : runLoop budget.toInt.toNat (s.beginRun budget) = .next u) : run budget s = .next u.endRun := by
  simp only [run, h]

/-- A run is guarded steps, within its budget, to a state whose guard fails. -/
theorem run_ends (budget : Cycles) (s : State) :
    ∃ k u, GuardedSteps k (s.beginRun budget) u ∧ u.mayFetch = false ∧ (k : Int) ≤ max budget.toInt 0 ∧
      run budget s = .next u.endRun := by
  have hcyc := beginRun_cyc_toInt s budget
  obtain ⟨k, u, hsteps, hu, hk, hloop⟩ := runLoop_ends budget.toInt.toNat (s.beginRun budget) (by omega)
  exact ⟨k, u, hsteps, hu, by omega, run_of_runLoop hloop⟩

/-- Settles O51: the counter bounds the loop, since every step debits at least one cycle. -/
theorem aRunEndsWithinItsBudget : Obligations.ARunEndsWithinItsBudget := run_ends

/-- What every step keeps, the steps of a run keep. -/
theorem GuardedSteps.preserves {P : State → Prop} (hstep : ∀ s t, step s = .next t → P s → P t) {k : Nat} {s u : State}
    (h : GuardedSteps k s u) (hs : P s) : P u := by
  induction h with
  | done => exact hs
  | turn k s t u hguard ht hsteps ih => exact ih (hstep s t ht hs)

/-- What holds inside a run: the counter is not negative, and `STATUS` is `RUNNING` or `HALTED` (R150). -/
def State.InRun (s : State) : Prop := 0 ≤ s.cyc.toInt ∧ (s.status = .running ∨ s.status = .halted)

theorem step_inRun (s t : State) (h : step s = .next t) (hs : s.InRun) : t.InRun := by
  refine ⟨?_, ?_⟩
  · rw [step_cyc_toInt h]
    exact le_max_right _ 0
  · rw [step_status h]
    split
    · exact .inr rfl
    · exact hs.2

theorem beginRun_inRun (s : State) (budget : Cycles) : (s.beginRun budget).InRun := by
  refine ⟨?_, .inl rfl⟩
  rw [beginRun_cyc_toInt]
  exact le_max_right _ 0

/-- Settles O52: the last state of the loop is halted, or it is running with nothing left on the counter. -/
theorem aRunEndsHaltedOrExhausted : Obligations.ARunEndsHaltedOrExhausted := by
  intro budget s
  obtain ⟨k, u, hsteps, hu, -, hrun⟩ := run_ends budget s
  obtain ⟨hcyc, hstatus⟩ := hsteps.preserves step_inRun (beginRun_inRun s budget)
  refine ⟨u.endRun, hrun, ?_⟩
  obtain hrunning | hhalted := hstatus
  · have hzero : u.cyc.toInt = 0 := by
      rw [← Bool.not_eq_true, mayFetch_iff] at hu
      have := mt (And.intro hrunning) hu
      omega
    rw [State.endRun, if_pos hrunning]
    exact ⟨hcyc, .inr ⟨rfl, hzero⟩, fun hgone => by cases hgone⟩
  · rw [State.endRun, if_neg (by simp [hhalted])]
    exact ⟨hcyc, .inl hhalted, fun hgone => by cases hhalted.symm.trans hgone⟩

/-- Settles O53: the guard fails at once. -/
theorem anEmptyBudgetRunsNothing : Obligations.AnEmptyBudgetRunsNothing := by
  intro budget s h
  have hguard : (s.beginRun budget).mayFetch = false := by
    rw [← Bool.not_eq_true, mayFetch_iff, beginRun_cyc_toInt]
    omega
  rw [run_of_runLoop (runLoop_of_not_mayFetch _ hguard), State.endRun, if_pos (beginRun_status s budget)]
  simp only [State.beginRun, State.setStatus, max_eq_right h]
  rfl

/-- Settles O54: `beginRun` overwrites both. -/
theorem aRunOverwritesCounterAndStatus : Obligations.ARunOverwritesCounterAndStatus :=
  fun budget _ _ s => ⟨rfl, beginRun_cyc_toInt s budget, beginRun_status s budget⟩

/-- The records of `t` are those of `s` and then precise ones. -/
def AddsPreciseReports (s t : State) : Prop :=
  ∃ new, t.reports = s.reports ++ new ∧ ∀ r ∈ new, r.Precise s.mem

theorem AddsPreciseReports.step {s t u : State} (hmem : t.mem = s.mem) (hs : AddsPreciseReports s t)
    (h : step t = .next u) : AddsPreciseReports s u := by
  obtain ⟨new, hnew, hprecise⟩ := hs
  refine ⟨new ++ t.newReports, ?_, fun r hr => ?_⟩
  · rw [step_reports h, hnew, List.append_assoc]
  · obtain hr | hr := List.mem_append.1 hr
    · exact hprecise r hr
    · rw [← hmem]
      exact precise_of_mem_newReports hr

theorem beginRun_kept (s : State) (budget : Cycles) : Kept s (s.beginRun budget) :=
  ⟨rfl, rfl, rfl, rfl, rfl, rfl, rfl, rfl, rfl⟩

/-- The end of a run writes `STATUS` only (R144). -/
theorem endRun_eq (s : State) : s.endRun = { s with status := s.endRun.status } := by
  unfold State.endRun
  split <;> rfl

theorem endRun_kept (s : State) : Kept s s.endRun := by
  rw [endRun_eq]
  exact ⟨rfl, rfl, rfl, rfl, rfl, rfl, rfl, rfl, rfl⟩

theorem endRun_reports (s : State) : s.endRun.reports = s.reports := by
  rw [endRun_eq]

/-- What a run keeps and what records it adds. -/
theorem run_kept (budget : Cycles) (s : State) :
    ∃ t, run budget s = .next t ∧ Kept s t ∧ AddsPreciseReports s t := by
  obtain ⟨k, u, hsteps, -, -, hrun⟩ := run_ends budget s
  have hu : Kept s u ∧ AddsPreciseReports s u :=
    hsteps.preserves (P := fun v => Kept s v ∧ AddsPreciseReports s v)
      (fun v w h ⟨hkept, hadds⟩ => ⟨hkept.trans (step_kept h), hadds.step hkept.memory h⟩)
      ⟨beginRun_kept s budget, [], (List.append_nil _).symm, fun _ hr => (List.not_mem_nil hr).elim⟩
  obtain ⟨hkept, new, hnew, hprecise⟩ := hu
  exact ⟨u.endRun, hrun, hkept.trans (endRun_kept u), new, (endRun_reports u).trans hnew, hprecise⟩

/-- Settles O55: beginning, every step and ending keep what `Kept` lists, and a step appends precise records only. -/
theorem aRunKeepsMemoryAndAddsPreciseReports : Obligations.ARunKeepsMemoryAndAddsPreciseReports := by
  intro budget s
  obtain ⟨t, hrun, ⟨hmem, hx, hy, hsp, hc, hi, hd, hb, hv⟩, new, hnew, hprecise⟩ := run_kept budget s
  exact ⟨t, new, hrun, hmem, hx, hy, hsp, hc, hi, hd, hb, hv, hnew, hprecise⟩

/-- A run with a positive budget takes its first step, and on the halt opcode that is its last. -/
theorem run_of_brk {budget : Cycles} {s : State} (hbudget : 0 < budget.toInt)
    (hop : decodeOpcode s.opcode = .brk) : run budget s = .next (halt (s.beginRun budget).opcodeFetched) := by
  have hguard : (s.beginRun budget).mayFetch = true := by
    rw [mayFetch_iff, beginRun_cyc_toInt]
    exact ⟨rfl, by omega⟩
  obtain ⟨n, hn⟩ : ∃ n, budget.toInt.toNat = n + 1 := ⟨budget.toInt.toNat - 1, by omega⟩
  have hloop : runLoop budget.toInt.toNat (s.beginRun budget) = .next (halt (s.beginRun budget).opcodeFetched) := by
    rw [hn, runLoop_succ_of_mayFetch n hguard (step_of_brk _ hop)]
    exact runLoop_of_not_mayFetch n rfl
  exact run_of_runLoop hloop

/-- Settles O56: the run is one step, the halt, on the state with the budget loaded. -/
theorem aHaltWinsOverExhaustion : Obligations.AHaltWinsOverExhaustion := by
  intro budget s hbudget hop
  have hbrk : decodeOpcode s.opcode = .brk := by rw [hop]; rfl
  refine ⟨_, run_of_brk hbudget hbrk, rfl, ?_, ?_, ?_⟩
  · rw [halt_eq]
    exact opcodeFetched_pc_toNat s
  · rw [halt_eq]
    have hcyc := beginRun_cyc_toInt s budget
    simp only [opcodeFetched_cyc, satsub_toInt, hcyc]
    omega
  · rw [halt_eq]
    rfl

end Sys2Proof.Machine
end

section
namespace Sys2Proof.Machine

/-! ### Reset and the moves of the host -/

/-- Settles O57: the table is evaluated, and a created memory has no entry. -/
theorem resetLeavesTheTablesValues : Obligations.ResetLeavesTheTablesValues :=
  ⟨rfl, rfl, rfl, rfl, rfl, rfl, rfl, rfl, rfl, rfl, fun _ => rfl⟩

theorem hostMove_reset (s : State) : hostMove .reset s = .next s.resetBlock := by
  simp [hostMove, hostEffect]

/-- Settles O58: the reset arm of the host moves runs in every status. -/
theorem resetOfTheBlockKeepsMemory : Obligations.ResetOfTheBlockKeepsMemory :=
  fun s => ⟨s.resetBlock, hostMove_reset s, rfl⟩

/-- No move of a stopped block is without effect: a run and a step complete from every state. -/
theorem hostEffect_completes (h : HostMove) (s : State) : ∃ t, hostEffect h s = .next t := by
  cases h with
  | run budget =>
    obtain ⟨t, hrun, -⟩ := run_kept budget s
    exact ⟨t, hrun⟩
  | step => exact step_completes s
  | _ => exact ⟨_, rfl⟩

theorem hostMove_of_stopped (h : HostMove) {s : State} (hs : s.status ≠ .running) : hostMove h s = hostEffect h s :=
  if_neg fun hrunning => hs hrunning.1

theorem hostMove_of_running {h : HostMove} {s : State} (hs : s.status = .running) (hh : h ≠ .reset) :
    hostMove h s = .refused .hostMoveDuringRun :=
  if_pos ⟨hs, hh⟩

/-- Settles O59: a stopped block gives the move its effect, and every effect completes. -/
theorem theHostMovesOnlyWhileStopped : Obligations.TheHostMovesOnlyWhileStopped := by
  refine fun h s => ⟨fun hs => ?_, hostMove_of_running⟩
  rw [hostMove_of_stopped h hs]
  exact hostEffect_completes h s

/-- A move that is not refused has its effect. -/
theorem hostEffect_of_hostMove {h : HostMove} {s t : State} (hmove : hostMove h s = .next t) :
    hostEffect h s = .next t := by
  unfold hostMove at hmove
  split at hmove
  case isTrue => cases hmove
  case isFalse => exact hmove

/-- Settles O60: the two memory writes keep the form, and no other move writes memory. -/
theorem everyHostMoveKeepsMemoryCanonical : Obligations.EveryHostMoveKeepsMemoryCanonical := by
  intro h s t hwf hmove
  have heffect := hostEffect_of_hostMove hmove
  cases h with
  | run budget =>
    obtain ⟨u, hrun, hkept, -⟩ := run_kept budget s
    cases hrun.symm.trans heffect
    rw [hkept.memory]
    exact hwf
  | step =>
    rw [(step_kept heffect).memory]
    exact hwf
  | writeByte a v =>
    cases heffect
    exact Memory.wf_write hwf
  | writeWord a w =>
    cases heffect
    exact Memory.wf_writeWord hwf
  | _ =>
    cases heffect
    exact hwf

end Sys2Proof.Machine
end
